-- ==== Sys2Proof/Word.lean ====
section
/-! DEFINITION. The types of the values the core holds (00_scope.md rules R4, R5). A `W`-bit value is an unsigned
integer in `[0, 2^W - 1]` and `W` is a parameter of the core, so ACC, DR and the cells of MEM are natural numbers that
one masking operation (`maskW` of Machine/Alu.lean, rule R20's choke point) keeps in range. What has a fixed width, an
address register of AW = 11 bits and an instruction word of IW = 16 bits, is a bit vector.
notes/assumptions/1.md. -/

namespace Sys2Proof

/-- A content of AR: `AW` = 11 bits (R4, R21). -/
abbrev Addr := BitVec 11

/-- One instruction word: `IW` = 16 bits (R4, R72). -/
abbrev InstrWord := BitVec 16

end Sys2Proof
end

