-- ==== Sys2Proof/Machine/Alu.lean ====
section
/-! DEFINITION. The word primitives the ALU is made of: 40_word_alu.md rules R90 to R96 and the rendering of R99. They
are pure functions on unsigned integers, for every `W`. -/

namespace Sys2Proof.Machine

/-- `MASK = 2^W - 1` (R4). -/
def wordMask (w : Nat) : Nat := 2 ^ w - 1

/-- `mask_W(v) = v mod 2^W` (R6, R90). -/
def maskW (w : Nat) (v : Nat) : Nat := v % 2 ^ w

/-- `and_W(a, b)` (R91). -/
def andW (a b : Nat) : Nat := a &&& b

/-- `or_W(a, b)` (R92). -/
def orW (a b : Nat) : Nat := a ||| b

/-- `xor_W(a, b)` (R93). -/
def xorW (a b : Nat) : Nat := a ^^^ b

/-- `not_W(a) = MASK - a` (R94). -/
def notW (w : Nat) (a : Nat) : Nat := wordMask w - a

/-- `shl_W(a, n) = mask_W(a * 2^n)` for any distance `n` (R95). -/
def shlW (w : Nat) (a : Nat) (n : Nat) : Nat := maskW w (a * 2 ^ n)

/-- `shr_W(a, n) = floor(a / 2^n)` for any distance `n` (R96). -/
def shrW (a : Nat) (n : Nat) : Nat := a / 2 ^ n

/-- The binary rendering: exactly `W` characters, most significant bit first (R99). -/
def renderW (w : Nat) (a : Nat) : List Char :=
  match w with
  | 0 => []
  | n + 1 => (if a.testBit n then '1' else '0') :: renderW n a

end Sys2Proof.Machine
end

