-- ==== Sys2Proof/Config.lean ====
section
/-! DEFINITION. The parameters a core is built with: 00_scope.md rule R4, and RESET_ACC of 10_state.md rule R35.
They are fixed when the core is built and no operation changes them (R180). STEP_DELAY is left out: no rule depends
on it (notes/assumptions/8.md). -/

namespace Sys2Proof

/-- PHASE_MODEL (R4): `split` is normative, one step is one phase (R114); `fused`, one step is one instruction (R115). -/
inductive PhaseModel where
  | split
  | fused
  deriving DecidableEq, Repr

/-- The parameters of one core. -/
structure Config where
  /-- `W`, the bits of a word (R4). -/
  w : Nat
  /-- `SIZE`, the number of MEM cells (R4). -/
  size : Nat
  /-- `IMEM_CAP`, the capacity of the instruction store in instructions; `none`: unbounded (R4, D16). -/
  imemCap : Option Nat
  /-- `PHASE_MODEL` (R4, D1). -/
  phaseModel : PhaseModel
  /-- `RESET_ACC`, the value of ACC after reset (R35); 0 in the reference core. -/
  resetAcc : Nat
  /-- Whether `STOP_SLACK` may be drawn 1 at a `stop` (R120, D14); `false`: the hardware, always 0. -/
  stopSlack : Bool
  deriving DecidableEq, Repr

/-- The constraints of R4 and R35 (and D5, `SIZE <= 2^AW`): a core that breaks one is not built (R153). -/
def Config.wf (c : Config) : Bool :=
  decide (1 ≤ c.w) && decide (1 ≤ c.size) && decide (c.size ≤ 2 ^ 11) && decide (c.resetAcc < 2 ^ c.w)

/-- The reference configuration (R4, R11): `W = 8`, `SIZE = 16`, split phases, `STOP_SLACK = 0`. -/
def Config.reference : Config :=
  { w := 8, size := 16, imemCap := none, phaseModel := .split, resetAcc := 0, stopSlack := false }

end Sys2Proof
end

