-- ==== Sys2Proof/Syntax.lean ====
section
/-! DEFINITION. The instructions: 30_encoding.md rules R70 and R74, one constructor for each of the sixteen rows of
spec/opcode_table.json (the two addressing modes of 43_load_store.md rule R108 for each of the eight operations). -/

namespace Sys2Proof

/-- The closed set of operations, in the order of R74. -/
inductive Op where
  | or
  | and
  | xor
  | not
  | lshift
  | rshift
  | load
  | store
  deriving DecidableEq, Repr

/-- One instruction. `…Retained` is the form without an argument (`or()`: AR keeps its address), `…Direct a` the form
with the argument `a` (`or(a)`), an unsigned integer (R70). -/
inductive Instr where
  | orRetained
  | orDirect (a : Nat)
  | andRetained
  | andDirect (a : Nat)
  | xorRetained
  | xorDirect (a : Nat)
  | notRetained
  | notDirect (a : Nat)
  | lshiftRetained
  | lshiftDirect (a : Nat)
  | rshiftRetained
  | rshiftDirect (a : Nat)
  | loadRetained
  | loadDirect (a : Nat)
  | storeRetained
  | storeDirect (a : Nat)
  deriving DecidableEq, Repr

/-- Why a word is reserved: the two sets of R78. -/
inductive Reserved where
  /-- `OPC` in 8 .. 15: no operation is assigned. -/
  | opcode
  /-- `P = 0` and `A != 0`: an instruction without an argument whose argument field is not zero. -/
  | strayArgument
  deriving DecidableEq, Repr

end Sys2Proof
end

