-- ==== Sys2Proof/Machine/State.lean ====
section
/-! DEFINITION. The state of the core (10_state.md section 1), its reset value (R35, R180), the reasons an operation
can fail (60_exceptions.md) and the operations of the two agents (R8, R138) as plain data. -/

namespace Sys2Proof.Machine

/-- MEM as the list of its non-zero cells, address and value, addresses strictly rising (`Memory.wf`). -/
abbrev Memory := List (Nat × Nat)

/-- What an address that is not listed reads as: 0, the reset value the spec gives every cell (R28, R60). -/
def Memory.unlisted : Nat := 0

/-- The canonical form: addresses strictly rising, and no entry equal to what an unlisted address reads as. -/
def Memory.wf (m : Memory) : Bool :=
  match m with
  | [] => true
  | c :: rest => decide (c.2 ≠ Memory.unlisted) && rest.all (fun d => decide (c.1 < d.1)) && Memory.wf rest

/-- PHASE (R26). -/
inductive Phase where
  | idle
  | decoded
  deriving DecidableEq, Repr

/-- The whole state of the core: the tuple of 10_state.md section 1, with LEN the length of IMEM (R25), the hidden bit
LATE of R120, and the parameters the core was built with (R4). -/
structure State where
  /-- The parameters; no operation changes them (R180). -/
  cfg : Config
  /-- ACC, `W` bits (R20). -/
  acc : Nat
  /-- AR, 11 bits (R21). -/
  ar : Addr
  /-- DR, `W` bits, the mirror of `MEM[AR]` (R22, R29). -/
  dr : Nat
  /-- IR, 16 bits; not to be read while IRV = 0 (R23). -/
  ir : InstrWord
  /-- IRV: IR holds an instruction (R23). -/
  irv : Bool
  /-- PC, an index into IMEM (R24). -/
  pc : Nat
  /-- PHASE (R26). -/
  phase : Phase
  /-- RUN: a `play` is in progress (R27). -/
  run : Bool
  /-- LATE: one step may still happen after a `stop` (R120); always false in hardware, whose STOP_SLACK is 0. -/
  late : Bool
  /-- IMEM, the program (R25, R56). -/
  imem : List InstrWord
  /-- MEM, the data memory (R28). -/
  mem : Memory
  deriving DecidableEq, Repr

/-- The four kinds of R151. An operation that faults has changed nothing (R157), so each is SAFE: the machine reports
what the spec says is reported and the state before the operation is the state after it. -/
inductive Fault where
  /-- Code 1. Raised by nothing: the conditions cannot be represented in the core's registers and ports (R153). Safe. -/
  | invalidArgument
  /-- Code 2. Raised by the fetch/decode phase (the address, with PC), the host `write` (the address) and the host
  `insert` (the position) (R152, R155). Safe. -/
  | outOfRange (value : Nat) (pc : Option Nat)
  /-- Code 3. Raised by the fetch/decode phase on a reserved word (the word and PC) (R152, R156). Safe. -/
  | unknownOperation (word : InstrWord) (pc : Nat)
  /-- Code 4. Raised by a step at PHASE = Decoded with no decoded instruction in IR (R123, U1), in no state a run
  reaches (R159). Safe. -/
  | invalidState
  deriving DecidableEq, Repr

/-- What the model gives no next state to without the spec naming a fault kind for it. -/
inductive Refusal where
  /-- An instruction that has no meaning yet; the name is its row's in spec/opcode_table.json. Raised by the arms of
  Machine/Dispatch.lean alone. Safe. -/
  | notModelled (mnemonic : String)
  /-- `append` or `insert` on a full instruction store: refused, the state unchanged, no fault kind (R132, D16). Safe. -/
  | imemFull
  /-- Parameters outside the constraints of R4 and R35: such a core is not built (R153). Safe. -/
  | notBuilt
  /-- A fetch at `PC > LEN`: the spec says it cannot happen and defines no fault for it (R57); in no state a run
  reaches. Raised by the sequencer. Safe. -/
  | fetchOutsideProgram
  deriving DecidableEq, Repr

/-- What is reported to whoever started an operation (R157). -/
inductive Report where
  | done
  | fault (f : Fault)
  | refused (r : Refusal)
  deriving DecidableEq, Repr

/-- An operation's end: the state after it, which it has also when it faults, and the report. The report is no part
of the core's state (R157, R158). -/
structure Reaction where
  state : State
  report : Report
  deriving DecidableEq, Repr

/-- One operation of either agent, started at a step boundary (R8, R138). -/
inductive Event where
  /-- Host `reset` (R180). -/
  | reset
  /-- Host `write(value, address)` (R130). -/
  | write (value address : Nat)
  /-- Host `append(i)` (R132). -/
  | append (word : InstrWord)
  /-- Host `insert(i, position)` (R133). -/
  | insert (word : InstrWord) (position : Nat)
  /-- Host `step` (R114). -/
  | step
  /-- Host `play` (R117). -/
  | play
  /-- Host `stop` (R119) with the draw of STOP_SLACK that R120 makes at it. -/
  | stop (slack : Bool)
  /-- Host `snapshot` (R136). -/
  | snapshot
  /-- The sequencer takes its turn: an automatic step if RUN = 1 (R118), nothing otherwise. -/
  | auto
  /-- The sequencer's late step after a `stop`, if LATE = 1 (R120). -/
  | lateStep
  deriving DecidableEq, Repr

/-- What the host reads of the state (R136). -/
structure Snapshot where
  accumulator : Nat
  addressRegister : Addr
  dataRegister : Nat
  /-- The operation and the argument list; none while IRV = 0. -/
  instructionRegister : Option (Op × List Nat)
  memory : List Nat
  wordSize : Nat
  instructionList : List InstrWord
  counter : Nat
  complete : Bool
  deriving DecidableEq, Repr

/-- The state of a core right after construction, which is also the state `reset` leaves (R35, R180). IR is 0 while
IRV = 0 (notes/assumptions/3.md). -/
def State.initial (c : Config) : State :=
  { cfg := c, acc := c.resetAcc, ar := 0, dr := 0, ir := 0, irv := false, pc := 0, phase := .idle, run := false,
    late := false, imem := [], mem := [] }

/-- The reference core right after reset (R35, R181). -/
def State.reset : State := State.initial Config.reference

end Sys2Proof.Machine
end

