-- ==== Sys2Proof/Machine/Flags.lean ====
section
/-! DEFINITION. The core has no flags, condition codes or predicates (10_state.md rule R33), so no instruction
computes one. The one flag of the spec is the completion flag of the snapshot, a comparison and not a register. -/

namespace Sys2Proof.Machine

/-- LEN, the number of instructions in IMEM (R25). -/
def State.len (s : State) : Nat := s.imem.length

/-- The completion flag: `PC == LEN` (R24, R33, R122). -/
def State.complete (s : State) : Bool := s.pc == s.len

end Sys2Proof.Machine
end

