-- ==== Sys2Proof/WellFormed.lean ====
section
/-! DEFINITION. Which instructions have an encoding: 30_encoding.md rules R73 and R79, the argument fits the 11-bit
field. An instruction that does not is refused by whatever builds the program (D18). -/

namespace Sys2Proof

/-- The argument, where there is one, is in `[0, 2047]` (R79). -/
def Instr.wf (i : Instr) : Bool :=
  match i with
  | .orRetained => true
  | .orDirect a => decide (a < 2048)
  | .andRetained => true
  | .andDirect a => decide (a < 2048)
  | .xorRetained => true
  | .xorDirect a => decide (a < 2048)
  | .notRetained => true
  | .notDirect a => decide (a < 2048)
  | .lshiftRetained => true
  | .lshiftDirect a => decide (a < 2048)
  | .rshiftRetained => true
  | .rshiftDirect a => decide (a < 2048)
  | .loadRetained => true
  | .loadDirect a => decide (a < 2048)
  | .storeRetained => true
  | .storeDirect a => decide (a < 2048)

end Sys2Proof
end

