-- ==== Sys2Proof/Decode.lean ====
section
/-! DEFINITION. The bit image of an instruction: 30_encoding.md section 2 (rules R72, R76, R77, R78), its decoder,
its encoder, and R77's table of match and mask. -/

namespace Sys2Proof

/-- The operation of the abstract triple `(op, P, A)` (R70). -/
def Instr.op (i : Instr) : Op :=
  match i with
  | .orRetained => .or
  | .orDirect _ => .or
  | .andRetained => .and
  | .andDirect _ => .and
  | .xorRetained => .xor
  | .xorDirect _ => .xor
  | .notRetained => .not
  | .notDirect _ => .not
  | .lshiftRetained => .lshift
  | .lshiftDirect _ => .lshift
  | .rshiftRetained => .rshift
  | .rshiftDirect _ => .rshift
  | .loadRetained => .load
  | .loadDirect _ => .load
  | .storeRetained => .store
  | .storeDirect _ => .store

/-- The argument of the abstract triple: `some A` when `P = 1`, `none` when `P = 0` (R70). -/
def Instr.arg (i : Instr) : Option Nat :=
  match i with
  | .orRetained => none
  | .orDirect a => some a
  | .andRetained => none
  | .andDirect a => some a
  | .xorRetained => none
  | .xorDirect a => some a
  | .notRetained => none
  | .notDirect a => some a
  | .lshiftRetained => none
  | .lshiftDirect a => some a
  | .rshiftRetained => none
  | .rshiftDirect a => some a
  | .loadRetained => none
  | .loadDirect a => some a
  | .storeRetained => none
  | .storeDirect a => some a

/-- The instruction of an operation and an argument list of length 0 or 1 (R70). -/
def Instr.ofOp (o : Op) (arg : Option Nat) : Instr :=
  match o, arg with
  | .or, none => .orRetained
  | .or, some a => .orDirect a
  | .and, none => .andRetained
  | .and, some a => .andDirect a
  | .xor, none => .xorRetained
  | .xor, some a => .xorDirect a
  | .not, none => .notRetained
  | .not, some a => .notDirect a
  | .lshift, none => .lshiftRetained
  | .lshift, some a => .lshiftDirect a
  | .rshift, none => .rshiftRetained
  | .rshift, some a => .rshiftDirect a
  | .load, none => .loadRetained
  | .load, some a => .loadDirect a
  | .store, none => .storeRetained
  | .store, some a => .storeDirect a

/-- The operation codes of R76. -/
def Op.code (o : Op) : BitVec 4 :=
  match o with
  | .or => 0
  | .and => 1
  | .xor => 2
  | .not => 3
  | .lshift => 4
  | .rshift => 5
  | .load => 6
  | .store => 7

/-- R76 read backwards; codes 8 to 15 are reserved (R78). -/
def Op.ofCode (c : BitVec 4) : Option Op :=
  match c.toNat with
  | 0 => some .or
  | 1 => some .and
  | 2 => some .xor
  | 3 => some .not
  | 4 => some .lshift
  | 5 => some .rshift
  | 6 => some .load
  | 7 => some .store
  | _ => none

/-- Bits 15:12, `OPC` (R72). -/
def opcField (w : InstrWord) : BitVec 4 := w.extractLsb' 12 4

/-- Bit 11, `P` (R72). -/
def pField (w : InstrWord) : Bool := w.getLsbD 11

/-- Bits 10:0, `A` (R72). -/
def aField (w : InstrWord) : BitVec 11 := w.extractLsb' 0 11

/-- The instruction of a word, or which of R78's two reserved sets the word is in. -/
def decodeWord (w : InstrWord) : Except Reserved Instr :=
  match Op.ofCode (opcField w) with
  | none => .error .opcode
  | some o =>
    if pField w then .ok (Instr.ofOp o (some (aField w).toNat))
    else if aField w = 0 then .ok (Instr.ofOp o none)
    else .error .strayArgument

/-- The instruction of a legal word; `none` for a reserved one (R77, R78). -/
def decode (w : InstrWord) : Option Instr :=
  match decodeWord w with
  | .ok i => some i
  | .error _ => none

/-- The word of an instruction: `OPC ++ P ++ A`, with `A` zero when there is no argument (R72, R77). -/
def encode (i : Instr) : InstrWord :=
  match i.arg with
  | some a => i.op.code ++ (1 : BitVec 1) ++ BitVec.ofNat 11 a
  | none => i.op.code ++ (0 : BitVec 1) ++ (0 : BitVec 11)

/-- One row of R77's table. -/
structure PatternRow where
  op : Op
  hasArg : Bool
  pattern : InstrWord
  mask : InstrWord
  deriving DecidableEq, Repr

/-- The sixteen legal patterns of R77, in its order, as its table writes them. -/
def patternRows : List PatternRow :=
  [ ⟨.or, false, 0x0000, 0xFFFF⟩, ⟨.or, true, 0x0800, 0xF800⟩,
    ⟨.and, false, 0x1000, 0xFFFF⟩, ⟨.and, true, 0x1800, 0xF800⟩,
    ⟨.xor, false, 0x2000, 0xFFFF⟩, ⟨.xor, true, 0x2800, 0xF800⟩,
    ⟨.not, false, 0x3000, 0xFFFF⟩, ⟨.not, true, 0x3800, 0xF800⟩ ] ++
  [ ⟨.lshift, false, 0x4000, 0xFFFF⟩, ⟨.lshift, true, 0x4800, 0xF800⟩,
    ⟨.rshift, false, 0x5000, 0xFFFF⟩, ⟨.rshift, true, 0x5800, 0xF800⟩,
    ⟨.load, false, 0x6000, 0xFFFF⟩, ⟨.load, true, 0x6800, 0xF800⟩,
    ⟨.store, false, 0x7000, 0xFFFF⟩, ⟨.store, true, 0x7800, 0xF800⟩ ]

/-- `w` is an instruction of the row: `w & mask == match` (R77). -/
def PatternRow.matches (r : PatternRow) (w : InstrWord) : Bool := w &&& r.mask == r.pattern

/-- The host's question: the instruction of the word whose bits are `w`, the row giving `nbits` of them (bits above
them zero). One instruction is one 16-bit word (R72). -/
def decodeTableWord (nbits w : Nat) : Option Instr := decode (BitVec.ofNat 16 (w % 2 ^ nbits))

end Sys2Proof
end

