-- ==== Sys2Proof/Machine/Operands.lean ====
section
/-! DEFINITION. Operand assembly: 30_encoding.md rule R71 and the two addressing modes of 43_load_store.md rule R108. -/

namespace Sys2Proof.Machine

/-- The effective address: the argument when there is one (direct), else the present content of AR (retained). No
scaling, no extension, no base register (R71, R108). -/
def effectiveAddr (i : Instr) (s : State) : Nat :=
  match i.arg with
  | some a => a
  | none => s.ar.toNat

end Sys2Proof.Machine
end

