-- ==== Sys2Proof/Machine/Ops.lean ====
section
/-! DEFINITION. The named operations over memory and registers, and the two phases every instruction goes through:
20_memory.md rules R51 to R53, 10_state.md rules R20 and R29, 44_sequencer.md rules R111 to R113, and raising a fault
(60_exceptions.md rule R157). There is no return from a fault (R158), so none is defined. -/

namespace Sys2Proof.Machine

/-- How an operation on the core ends. -/
abbrev Result := Host.Outcome State Fault Refusal

/-- The content of the cell at `a` (R28); an unlisted cell holds 0. -/
def Memory.read (m : Memory) (a : Nat) : Nat :=
  match m with
  | [] => Memory.unlisted
  | c :: rest => if c.1 = a then c.2 else Memory.read rest a

/-- The memory with the cell at `a` holding `v`, in canonical form. -/
def Memory.write (m : Memory) (a : Nat) (v : Nat) : Memory :=
  match m with
  | [] => if v = Memory.unlisted then [] else [(a, v)]
  | c :: rest =>
    if a < c.1 then (if v = Memory.unlisted then c :: rest else (a, v) :: c :: rest)
    else if a = c.1 then (if v = Memory.unlisted then rest else (a, v) :: rest)
    else c :: Memory.write rest a v

/-- An address is valid if and only if it is in `[0, SIZE)` (R51). -/
def State.validAddr (s : State) (a : Nat) : Bool := decide (a < s.cfg.size)

/-- `MEM[a]`. -/
def State.cell (s : State) (a : Nat) : Nat := Memory.read s.mem a

/-- `MemRead(a, 1)` (R7, R52). -/
def memRead (s : State) (a : Nat) : Except Fault Nat :=
  if s.validAddr a then .ok (s.cell a) else .error (.outOfRange a none)

/-- `MemWrite(a, 1, v)`: the address is checked before anything is stored, the value is masked (R7, R53). -/
def memWrite (s : State) (a : Nat) (v : Nat) : Except Fault State :=
  if s.validAddr a then .ok { s with mem := Memory.write s.mem a (maskW s.cfg.w v) }
  else .error (.outOfRange a none)

/-- The one write of ACC, masked to `W` bits: the "single invariant-preserving choke point" of R20. -/
def State.setAcc (s : State) (raw : Nat) : State := { s with acc := maskW s.cfg.w raw }

/-- Raising a fault: the whole "trap entry" of R157. Nothing is saved and nothing changes; the kind is reported. What
the automatic step does besides (RUN) is in `autoStep`. -/
def raise (f : Fault) : Result := .fault f

/-- Run `f` after an operation that answered a state; a fault or a refusal passes through. -/
def andThen (o : Result) (f : State → Result) : Result :=
  match o with
  | .next t => f t
  | .fault e => .fault e
  | .refused r => .refused r

/-- Lines 2 to 4 of the fetch/decode phase (R111), for the instruction decoded on line 1. IR receives the
instruction's word, which is the word fetched, since decoding is injective (R77). -/
def fetchDecode (i : Instr) (s : State) : Result :=
  let a := effectiveAddr i s
  if s.validAddr a then
    match memRead s a with
    | .ok d => .next { s with ir := encode i, irv := true, ar := BitVec.ofNat 11 a, dr := d, phase := .decoded }
    | .error f => raise f
  else raise (.outOfRange a (some s.pc))

/-- Line 2 of the execute phase (R112), the one place PC changes (R113). -/
def advance (s : State) : State := { s with pc := s.pc + 1, phase := .idle }

/-- The execute phase: the operation, then the advance (R112). -/
def executePhase (operate : State → Result) (s : State) : Result :=
  andThen (operate s) fun t => .next (advance t)

/-- What one `step` does with the instruction `i`, whose operation is `operate`: the phase that is due under the split
model (R114), the whole instruction under the fused one (R115). A core found with PHASE = Decoded owes the execute
phase under either (notes/assumptions/7.md). -/
def runPhase (i : Instr) (operate : State → Result) (s : State) : Result :=
  match s.phase with
  | .decoded => executePhase operate s
  | .idle =>
    match s.cfg.phaseModel with
    | .split => fetchDecode i s
    | .fused => andThen (fetchDecode i s) (executePhase operate)

end Sys2Proof.Machine
end

