-- ==== Sys2Proof/Machine/LoadStore.lean ====
section
/-! DEFINITION. The meanings of `load` and `store`: 43_load_store.md rules R106 and R107. -/

namespace Sys2Proof.Machine

/-- `ACC <- DR` (R106). -/
def operateLoad (s : State) : Result := .next (s.setAcc s.dr)

/-- `MemWrite(AR, 1, ACC); DR <- ACC` (R107). The write cannot fault while AR is valid (R30). -/
def operateStore (s : State) : Result :=
  match memWrite s s.ar.toNat s.acc with
  | .ok t => .next { t with dr := s.acc }
  | .error f => raise f

/-- `load()` (R106). -/
def execLoadRetained (s : State) : Result := runPhase .loadRetained operateLoad s

/-- `load(a)` (R106). -/
def execLoadDirect (a : Nat) (s : State) : Result := runPhase (.loadDirect a) operateLoad s

/-- `store()` (R107). -/
def execStoreRetained (s : State) : Result := runPhase .storeRetained operateStore s

/-- `store(a)` (R107). -/
def execStoreDirect (a : Nat) (s : State) : Result := runPhase (.storeDirect a) operateStore s

end Sys2Proof.Machine
end

