-- ==== Sys2Proof/Machine/Logic.lean ====
section
/-! DEFINITION. The meanings of `or`, `and`, `xor`, `not`: 41_logic.md rules R100 to R103. -/

namespace Sys2Proof.Machine

/-- `ACC <- or_W(ACC, DR)` (R100). -/
def operateOr (s : State) : Result := .next (s.setAcc (orW s.acc s.dr))

/-- `ACC <- and_W(ACC, DR)` (R101). -/
def operateAnd (s : State) : Result := .next (s.setAcc (andW s.acc s.dr))

/-- `ACC <- xor_W(ACC, DR)` (R102). -/
def operateXor (s : State) : Result := .next (s.setAcc (xorW s.acc s.dr))

/-- `ACC <- not_W(ACC)` (R103). -/
def operateNot (s : State) : Result := .next (s.setAcc (notW s.cfg.w s.acc))

/-- `or()` (R100). -/
def execOrRetained (s : State) : Result := runPhase .orRetained operateOr s

/-- `or(a)` (R100). -/
def execOrDirect (a : Nat) (s : State) : Result := runPhase (.orDirect a) operateOr s

/-- `and()` (R101). -/
def execAndRetained (s : State) : Result := runPhase .andRetained operateAnd s

/-- `and(a)` (R101). -/
def execAndDirect (a : Nat) (s : State) : Result := runPhase (.andDirect a) operateAnd s

/-- `xor()` (R102). -/
def execXorRetained (s : State) : Result := runPhase .xorRetained operateXor s

/-- `xor(a)` (R102). -/
def execXorDirect (a : Nat) (s : State) : Result := runPhase (.xorDirect a) operateXor s

/-- `not()` (R103). -/
def execNotRetained (s : State) : Result := runPhase .notRetained operateNot s

/-- `not(a)`: the argument selects a cell whose value is not used (R103). -/
def execNotDirect (a : Nat) (s : State) : Result := runPhase (.notDirect a) operateNot s

end Sys2Proof.Machine
end

