-- ==== Sys2Proof/Machine/Shift.lean ====
section
/-! DEFINITION. The meanings of `lshift` and `rshift`: 42_shift.md rules R104 and R105. The distance is always 1; an
argument is an address, never a count. -/

namespace Sys2Proof.Machine

/-- `ACC <- shl_W(ACC, 1)` (R104). -/
def operateLshift (s : State) : Result := .next (s.setAcc (shlW s.cfg.w s.acc 1))

/-- `ACC <- shr_W(ACC, 1)` (R105). -/
def operateRshift (s : State) : Result := .next (s.setAcc (shrW s.acc 1))

/-- `lshift()` (R104). -/
def execLshiftRetained (s : State) : Result := runPhase .lshiftRetained operateLshift s

/-- `lshift(a)` (R104). -/
def execLshiftDirect (a : Nat) (s : State) : Result := runPhase (.lshiftDirect a) operateLshift s

/-- `rshift()` (R105). -/
def execRshiftRetained (s : State) : Result := runPhase .rshiftRetained operateRshift s

/-- `rshift(a)` (R105). -/
def execRshiftDirect (a : Nat) (s : State) : Result := runPhase (.rshiftDirect a) operateRshift s

end Sys2Proof.Machine
end

