-- ==== Sys2Proof/Machine/Dispatch.lean ====
section
/-! DEFINITION. One arm per constructor of Instr: what one `step` does with that instruction (R114, R115). -/

namespace Sys2Proof.Machine

def exec (i : Instr) (s : State) : Host.Outcome State Fault Refusal :=
  match i with
  | .orRetained => Sys2Proof.Machine.execOrRetained s
  | .orDirect a => Sys2Proof.Machine.execOrDirect a s
  | .andRetained => Sys2Proof.Machine.execAndRetained s
  | .andDirect a => Sys2Proof.Machine.execAndDirect a s
  | .xorRetained => Sys2Proof.Machine.execXorRetained s
  | .xorDirect a => Sys2Proof.Machine.execXorDirect a s
  | .notRetained => Sys2Proof.Machine.execNotRetained s
  | .notDirect a => Sys2Proof.Machine.execNotDirect a s
  | .lshiftRetained => Sys2Proof.Machine.execLshiftRetained s
  | .lshiftDirect a => Sys2Proof.Machine.execLshiftDirect a s
  | .rshiftRetained => Sys2Proof.Machine.execRshiftRetained s
  | .rshiftDirect a => Sys2Proof.Machine.execRshiftDirect a s
  | .loadRetained => Sys2Proof.Machine.execLoadRetained s
  | .loadDirect a => Sys2Proof.Machine.execLoadDirect a s
  | .storeRetained => Sys2Proof.Machine.execStoreRetained s
  | .storeDirect a => Sys2Proof.Machine.execStoreDirect a s

end Sys2Proof.Machine
end

