-- ==== Sys2Proof/Machine/Sequencer.lean ====
section
/-! DEFINITION. The sequencer: 44_sequencer.md rules R114, R115 (`step`), R117 (`play`), R118 (automatic steps), R119
(`stop`) and R120 (the late step). -/

namespace Sys2Proof.Machine

/-- The decoded instruction that waits for its execute phase: what IR holds, if it holds an instruction (R23, R26). -/
def State.pending (s : State) : Option Instr := if s.irv then decode s.ir else none

/-- The fetch of `IMEM[PC]` (R57) and line 1 of the fetch/decode phase (R111), then what `exec` does with the
instruction. A reserved word is UnknownOperation, whatever its low bits are (R78, R156, R160). A fetch beyond LEN
cannot happen (notes/assumptions/9.md). -/
def fetchAndRun (s : State) : Result :=
  match s.imem[s.pc]? with
  | none => .refused .fetchOutsideProgram
  | some w =>
    match decode w with
    | some i => exec i s
    | none => raise (.unknownOperation w s.pc)

/-- The execute phase of the pending instruction (R112), which uses IR and not IMEM (R64, R134); with none pending,
InvalidState (R123, U1). -/
def runPending (s : State) : Result :=
  match s.pending with
  | some i => exec i s
  | none => raise .invalidState

/-- `step` (R114, R115). -/
def sequencerStep (s : State) : Result :=
  if s.complete then .next s
  else
    match s.phase with
    | .idle => fetchAndRun s
    | .decoded => runPending s

/-- An operation's reaction: its new state, or the unchanged state with the fault or refusal reported (R157). -/
def react (s : State) (o : Result) : Reaction :=
  match o with
  | .next t => ⟨t, .done⟩
  | .fault f => ⟨s, .fault f⟩
  | .refused r => ⟨s, .refused r⟩

/-- `play` (R117); it clears LATE (R120). On a complete program nothing happens and nothing is reported (C3, D12). -/
def play (s : State) : State := if s.complete then s else { s with run := true, late := false }

/-- `stop` (R119). A core whose STOP_SLACK is not the constant 0 sets LATE to the draw made at this `stop` (R120);
notes/assumptions/5.md. -/
def stop (slack : Bool) (s : State) : State := { s with run := false, late := slack && s.cfg.stopSlack }

/-- RUN cleared, as the end of a `play` (R118). -/
def State.endRun (s : State) : State := { s with run := false }

/-- An automatic step (R118); without RUN the sequencer does nothing. A step that faults clears RUN and changes
nothing else (R157, D11); a step that completes the program clears RUN. -/
def autoStep (s : State) : Reaction :=
  if s.run then
    if s.complete then ⟨s.endRun, .done⟩
    else
      let r := react s (sequencerStep s)
      match r.report with
      | .done => ⟨if r.state.complete then r.state.endRun else r.state, .done⟩
      | _ => ⟨r.state.endRun, r.report⟩
  else ⟨s, .done⟩

/-- The late step (R120): while LATE = 1, one step as in R114 if `PC < LEN`, and LATE is cleared. -/
def lateStep (s : State) : Reaction :=
  if s.late && !s.complete then
    let r := react s (sequencerStep s)
    ⟨{ r.state with late := false }, r.report⟩
  else ⟨s, .done⟩

/-- The program store with the word `w` at index `n`: what is there is replaced, and a store that is too short is
filled up with `0x0000`, the legal word of `or()` (R78). -/
def placeWord (n : Nat) (w : InstrWord) (imem : List InstrWord) : List InstrWord :=
  imem.take n ++ List.replicate (n - imem.length) 0 ++ [w] ++ imem.drop (n + 1)

end Sys2Proof.Machine
end

