-- ==== Sys2Proof/Machine/Step.lean ====
section
/-! DEFINITION. One step of the machine: the spec's `step` operation (44_sequencer.md rules R114 and R115), and the
host's way to put one instruction where the next step fetches (notes/assumptions/10.md). -/

namespace Sys2Proof.Machine

/-- One `step`: one phase under the split model, one instruction under the fused one. -/
def step (s : State) : Host.Outcome State Fault Refusal := sequencerStep s

/-- `s` with the one-word instruction whose bits are `w` at `IMEM[PC]` and PHASE = Idle, so that the next step fetches
it. It stands for the host's loading of a program (R132, R182). -/
def State.withFetchWord (s : State) (nbits w : Nat) : State :=
  { s with imem := placeWord s.pc (BitVec.ofNat 16 (w % 2 ^ nbits)) s.imem, phase := .idle }

end Sys2Proof.Machine
end

