-- ==== Sys2Proof/Machine/Assembly.lean ====
section
/-! DEFINITION. The notation of programs: 30_encoding.md rules R80 (assembler syntax) and R81 (disassembly), over lists
of characters. It has no effect on the machine; `assemble` gives the words a host appends (R132). -/

namespace Sys2Proof.Machine

/-- The lower-case names of R74 and R80. -/
def opName (o : Op) : List Char :=
  match o with
  | .or => ['o', 'r']
  | .and => ['a', 'n', 'd']
  | .xor => ['x', 'o', 'r']
  | .not => ['n', 'o', 't']
  | .lshift => ['l', 's', 'h', 'i', 'f', 't']
  | .rshift => ['r', 's', 'h', 'i', 'f', 't']
  | .load => ['l', 'o', 'a', 'd']
  | .store => ['s', 't', 'o', 'r', 'e']

/-- The operations, in R74's order. -/
def allOps : List Op := [.or, .and, .xor, .not, .lshift, .rshift, .load, .store]

/-- The operation of a name; any other name is none of the eight (R74). -/
def opOfName (cs : List Char) : Option Op := allOps.find? fun o => opName o == cs

/-- One digit as its character. -/
def digitChar (d : Nat) : Char := Char.ofNat (48 + d)

/-- The decimal numeral of a number below 10000, without leading zeros. -/
def decimal (n : Nat) : List Char :=
  if n < 10 then [digitChar n]
  else if n < 100 then [digitChar (n / 10), digitChar (n % 10)]
  else if n < 1000 then [digitChar (n / 100), digitChar (n / 10 % 10), digitChar (n % 10)]
  else [digitChar (n / 1000), digitChar (n / 100 % 10), digitChar (n / 10 % 10), digitChar (n % 10)]

/-- The assembly form of an instruction: its name, then the decimal argument, if any, in parentheses (R81). -/
def printInstr (i : Instr) : List Char :=
  match i.arg with
  | none => opName i.op ++ ['(', ')']
  | some a => opName i.op ++ ['('] ++ decimal a ++ [')']

/-- Disassembly: a reserved word has no assembly form (R81). -/
def disassemble (w : InstrWord) : Option (List Char) := (decode w).map printInstr

/-- The tokens of R80's grammar. -/
inductive Token where
  | name (cs : List Char)
  | numeral (n : Nat)
  | openParen
  | closeParen
  | comma
  deriving DecidableEq, Repr

/-- The token being read: none, a name (its letters reversed), or a numeral (its value so far). -/
inductive Partial where
  | none
  | letters (rev : List Char)
  | digits (n : Nat)
  deriving DecidableEq, Repr

/-- The finished token, if one was being read. -/
def flush (p : Partial) : List Token :=
  match p with
  | .none => []
  | .letters rev => [.name rev.reverse]
  | .digits n => [.numeral n]

/-- The tokens of a text; `none` where a character belongs to no token. White space ends a token and is otherwise not
significant (R80, D19). -/
def tokenize (p : Partial) (cs : List Char) : Option (List Token) :=
  match cs with
  | [] => some (flush p)
  | c :: rest =>
    if c.isLower then
      match p with
      | .none => tokenize (.letters [c]) rest
      | .letters rev => tokenize (.letters (c :: rev)) rest
      | .digits _ => none
    else if c.isDigit then
      match p with
      | .none => tokenize (.digits (c.toNat - 48)) rest
      | .letters _ => none
      | .digits n => tokenize (.digits (n * 10 + (c.toNat - 48))) rest
    else if c.isWhitespace then (tokenize .none rest).map (flush p ++ ·)
    else if c = '(' then (tokenize .none rest).map (flush p ++ .openParen :: ·)
    else if c = ')' then (tokenize .none rest).map (flush p ++ .closeParen :: ·)
    else if c = ',' then (tokenize .none rest).map (flush p ++ .comma :: ·)
    else none

/-- One instruction's words of the grammar: a name of R80, and an argument in 0 .. 2047 or none. -/
def instrOf (cs : List Char) (arg : Option Nat) : Option Instr :=
  match opOfName cs with
  | none => none
  | some o => if (Instr.ofOp o arg).wf then some (Instr.ofOp o arg) else none

/-- `program := instruction ( "," instruction )*` (R80). -/
def parseProgram (ts : List Token) : Option (List Instr) :=
  match ts with
  | [.name cs, .openParen, .closeParen] => (instrOf cs none).map ([·])
  | [.name cs, .openParen, .numeral n, .closeParen] => (instrOf cs (some n)).map ([·])
  | .name cs :: .openParen :: .closeParen :: .comma :: rest =>
    match instrOf cs none, parseProgram rest with
    | some i, some is => some (i :: is)
    | _, _ => none
  | .name cs :: .openParen :: .numeral n :: .closeParen :: .comma :: rest =>
    match instrOf cs (some n), parseProgram rest with
    | some i, some is => some (i :: is)
    | _, _ => none
  | _ => none

/-- The instructions of a program's text (R80). -/
def parseText (cs : List Char) : Option (List Instr) :=
  match tokenize .none cs with
  | none => none
  | some ts => parseProgram ts

/-- The words of a program's text. -/
def assemble (cs : List Char) : Option (List InstrWord) := (parseText cs).map (List.map encode)

end Sys2Proof.Machine
end

