-- ==== Sys2Proof/Machine/HostPort.lean ====
section
/-! DEFINITION. The host port: 45_host_port.md rules R130 (`write`), R132 (`append`), R133 (`insert`), R136
(`snapshot`), the codes of faults (R151), building a core (R4, R153) and `reset` (R180); and one operation of either
agent as one function of the state (R8, R138). -/

namespace Sys2Proof.Machine

/-- The core of the parameters `c` right after construction, if such a core can be built (R4, R153, R180). -/
def State.build (c : Config) : Result := if c.wf then .next (State.initial c) else .refused .notBuilt

/-- Host `reset` (R180): the state at construction; the parameters stay. -/
def hostReset (s : State) : State := State.initial s.cfg

/-- Host `write(v, a)` (R130): the cell is written, then DR is refreshed from `MEM[AR]` (R29). -/
def hostWrite (v a : Nat) (s : State) : Result :=
  match memWrite s a v with
  | .error f => raise f
  | .ok t =>
    match memRead t t.ar.toNat with
    | .error f => raise f
    | .ok d => .next { t with dr := d }

/-- The instruction store is full: `LEN == IMEM_CAP` (R132, D16). -/
def State.imemFull (s : State) : Bool :=
  match s.cfg.imemCap with
  | none => false
  | some n => decide (n ≤ s.len)

/-- Host `append(i)` (R132). The word is stored as given (R78). -/
def hostAppend (w : InstrWord) (s : State) : Result :=
  if s.imemFull then .refused .imemFull else .next { s with imem := s.imem ++ [w] }

/-- Host `insert(i, p)` (R133). The position is checked before the capacity (notes/assumptions/6.md). -/
def hostInsert (w : InstrWord) (p : Nat) (s : State) : Result :=
  if s.len < p then raise (.outOfRange p none)
  else if s.imemFull then .refused .imemFull
  else .next { s with imem := s.imem.take p ++ w :: s.imem.drop p }

/-- Host `snapshot` (R136). -/
def snapshot (s : State) : Snapshot :=
  { accumulator := s.acc
    addressRegister := s.ar
    dataRegister := s.dr
    instructionRegister := s.pending.map fun i => (i.op, i.arg.toList)
    memory := (List.range s.cfg.size).map s.cell
    wordSize := s.cfg.w
    instructionList := s.imem
    counter := s.pc
    complete := s.complete }

/-- The code of a fault kind (R151). -/
def Fault.code (f : Fault) : Nat :=
  match f with
  | .invalidArgument => 1
  | .outOfRange _ _ => 2
  | .unknownOperation _ _ => 3
  | .invalidState => 4

/-- The code a report shows: 0 means no fault (R151). -/
def Report.code (r : Report) : Nat :=
  match r with
  | .done => 0
  | .fault f => f.code
  | .refused _ => 0

/-- One operation, started at a step boundary, to its end (R8, R60, R138). -/
def perform (e : Event) (s : State) : Reaction :=
  match e with
  | .reset => ⟨hostReset s, .done⟩
  | .write v a => react s (hostWrite v a s)
  | .append w => react s (hostAppend w s)
  | .insert w p => react s (hostInsert w p s)
  | .step => react s (step s)
  | .play => ⟨play s, .done⟩
  | .stop slack => ⟨stop slack s, .done⟩
  | .snapshot => ⟨s, .done⟩
  | .auto => autoStep s
  | .lateStep => lateStep s

/-- A sequence of operations, one after the other: any interleaving of the two agents is one such list (R8). -/
def performAll (es : List Event) (s : State) : State :=
  match es with
  | [] => s
  | e :: rest => performAll rest (perform e s).state

end Sys2Proof.Machine
end

