-- ==== Sys2Proof/Safety.lean ====
section
/-! DEFINITION. The invariants of 10_state.md rules R29 to R32, in the terms claims use, and what it is for a program
to run without a fault (R152). -/

namespace Sys2Proof.Machine

/-- What holds at every step boundary. -/
structure State.Inv (s : State) : Prop where
  /-- The parameters are those of a core that can be built (R4, R35). -/
  cfgWf : s.cfg.wf = true
  /-- The masking invariant for ACC (R20, R32). -/
  accRange : s.acc < 2 ^ s.cfg.w
  /-- The address-register invariant (R30). -/
  arValid : s.ar.toNat < s.cfg.size
  /-- The data-register invariant (R29). -/
  drMirror : s.dr = s.cell s.ar.toNat
  /-- The masking invariant for MEM (R28, R32). -/
  memRange : ∀ a, s.cell a < 2 ^ s.cfg.w
  /-- No cell outside the memory holds anything (R28, R51). -/
  memBounded : ∀ a, s.cfg.size ≤ a → s.cell a = 0
  /-- The model's canonical form of MEM. -/
  memWf : Memory.wf s.mem = true
  /-- The program-counter invariant, first part (R24, R31). -/
  pcRange : s.pc ≤ s.len
  /-- The program-counter invariant, second part: with PHASE = Decoded the program is not complete and IR holds a
  decoded instruction (R31). -/
  decodedPending : s.phase = .decoded → s.pc < s.len ∧ s.irv = true
  /-- IR, when it holds an instruction, holds a legal word, since only a decoded word is written to it (R111). -/
  irLegal : s.irv = true → (decode s.ir).isSome = true
  /-- IR keeps its construction value until the first fetch (R23; notes/assumptions/3.md). -/
  irBlank : s.irv = false → s.ir = 0
  /-- Under the fused model PHASE is Idle at every step boundary (R26, R115). -/
  fusedIdle : s.cfg.phaseModel = .fused → s.phase = .idle
  /-- LATE is set only where STOP_SLACK may be drawn, and only while no `play` is in progress (R120). -/
  lateStopped : s.late = true → s.run = false ∧ s.cfg.stopSlack = true
  /-- The program fits its store (R4, R132). -/
  capacity : ∀ n, s.cfg.imemCap = some n → s.len ≤ n

/-- A fetch/decode phase on the word `w` does not fault: it is legal, and its argument, if any, is a valid address
(R152). The address that an instruction without an argument uses is valid by R30. -/
def Config.runs (c : Config) (w : InstrWord) : Bool :=
  match decode w with
  | none => false
  | some i =>
    match i.arg with
    | none => true
    | some a => decide (a < c.size)

/-- No instruction the core has still to fetch faults (R116, R118: "fault-free"). -/
def State.faultFree (s : State) : Prop := ∀ w ∈ s.imem.drop s.pc, Config.runs s.cfg w = true

end Sys2Proof.Machine
end

