-- ==== Sys2Proof/Certificates/Slice0/Obligations.lean ====
section
/-! DEFINITION. The statements for the provers. Each docstring names the rule or section of spec/ it formalises; where
it rests on a decision the spec marks as its own (92_eei_decisions.md), or on a choice of the model, it says so. -/

open Sys2Proof Sys2Proof.Machine

namespace Sys2Proof.Spec

/-- What the rule of an instruction that writes only ACC says: the words of its two forms; the execute phase, with the
new ACC `result` and everything else as it was; the fetch/decode phase, alone under the split model and followed at
once by the execute phase under the fused one; and the one fault, whose reported values are the spec's own decision D9
(notes/assumptions/14.md). -/
def AluRule (retained : Instr) (direct : Nat → Instr) (base : Nat) (result : State → Nat) : Prop :=
  (encode retained).toNat = base ∧
  (∀ a, a < 2048 → (encode (direct a)).toNat = base + 2048 + a) ∧
  ∀ s : State, s.Inv → ∀ i : Instr, (i = retained ∨ ∃ a, i = direct a) →
    (s.phase = .decoded → exec i s = .next { s with acc := result s, pc := s.pc + 1, phase := .idle }) ∧
    (s.phase = .idle → effectiveAddr i s < s.cfg.size →
      let d : State :=
        { s with ir := encode i, irv := true, ar := BitVec.ofNat 11 (effectiveAddr i s),
                 dr := s.cell (effectiveAddr i s), phase := .decoded }
      (s.cfg.phaseModel = .split → exec i s = .next d) ∧
      (s.cfg.phaseModel = .fused →
        exec i s = .next { d with acc := result d, pc := s.pc + 1, phase := .idle })) ∧
    (s.phase = .idle → s.cfg.size ≤ effectiveAddr i s →
      exec i s = .fault (.outOfRange (effectiveAddr i s) (some s.pc)))

/-- The state `t` is `s` after `store` wrote ACC to the cell `a`: that cell, DR, PC and PHASE, and nothing else. -/
def StoredAt (a : Nat) (s t : State) : Prop :=
  t.cell a = s.acc ∧ (∀ b, b ≠ a → t.cell b = s.cell b) ∧
  t = { s with mem := t.mem, dr := s.acc, pc := s.pc + 1, phase := .idle }

/-- The new ACC of R124 for the operand `d`. -/
def instrAcc (o : Op) (w acc d : Nat) : Nat :=
  match o with
  | .or => acc ||| d
  | .and => acc &&& d
  | .xor => acc ^^^ d
  | .not => (2 ^ w - 1) - acc
  | .lshift => (2 * acc) % 2 ^ w
  | .rshift => acc / 2
  | .load => d
  | .store => acc

end Sys2Proof.Spec

/- ## Encoding -/

/-- 30_encoding.md section 2 (the spec's own bit image, D2): decoding the word of any instruction whose argument fits
the field gives the instruction back. -/
def Obligations.DecodeInvertsEncode : Prop :=
  ∀ i : Instr, i.wf = true → decode (encode i) = some i

/-- 30_encoding.md section 2 (D2, D4): encoding what a legal word decodes to gives the word back. -/
def Obligations.EncodeInvertsDecode : Prop :=
  ∀ (w : InstrWord) (i : Instr), decode w = some i → encode i = w ∧ i.wf = true

/-- 30_encoding.md section 2, the table of the sixteen legal patterns (D2): a word is the instruction of a row if and
only if it matches the row, with the argument in its low 11 bits, and no word matches two rows. -/
def Obligations.LegalWordsAreTheTable : Prop :=
  (∀ (w : InstrWord) (i : Instr), decode w = some i ↔
    ∃ r ∈ patternRows, r.matches w = true ∧
      i = Instr.ofOp r.op (if r.hasArg then some (w.toNat % 2048) else none)) ∧
  ∀ (w : InstrWord), ∀ r ∈ patternRows, ∀ q ∈ patternRows, r.matches w = true → q.matches w = true → r = q

/-- 30_encoding.md section 2, reserved encodings (D4): which words are reserved, that fetching one is UnknownOperation
with no state changed, and that `append` and `insert` store any word. -/
def Obligations.ReservedWordsFaultAtDecode : Prop :=
  (∀ w : InstrWord, decodeWord w = .error .opcode ↔ w.getLsbD 15 = true) ∧
  (∀ w : InstrWord, decodeWord w = .error .strayArgument ↔
    w.getLsbD 15 = false ∧ w.getLsbD 11 = false ∧ w.toNat % 2048 ≠ 0) ∧
  (∀ (s : State) (w : InstrWord), s.phase = .idle → s.imem[s.pc]? = some w → decode w = none →
    perform .step s = ⟨s, .fault (.unknownOperation w s.pc)⟩) ∧
  (∀ (s : State) (w : InstrWord), s.imemFull = false →
    perform (.append w) s = ⟨{ s with imem := s.imem ++ [w] }, .done⟩ ∧
    ∀ p, p ≤ s.len → (perform (.insert w p) s).report = .done ∧
      (perform (.insert w p) s).state.imem[p]? = some w)

/-- 95_test_vectors.md section 2.6: words written out from the encoding decode to the instructions they stand for. -/
def Obligations.SampleWordsDecode : Prop :=
  decode 0b0000000000000000 = some .orRetained ∧ decode 0b0000100000000000 = some (.orDirect 0) ∧
  decode 0b0001100000000001 = some (.andDirect 1) ∧ decode 0b0010111111111111 = some (.xorDirect 2047) ∧
  decode 0b0011000000000000 = some .notRetained ∧ decode 0b0100100000000101 = some (.lshiftDirect 5) ∧
  decode 0b0101000000000000 = some .rshiftRetained ∧ decode 0b0110100000000010 = some (.loadDirect 2) ∧
  decode 0b0111111111111111 = some (.storeDirect 2047) ∧ decode 0b0011000000000001 = none ∧
  decode 0b1000000000000000 = none ∧ decode 0b1111111111111111 = none

/-- 30_encoding.md section 3 (D19): the printed form of an instruction parses back to the instruction, and a word has a
printed form if and only if it is legal. -/
def Obligations.AssemblyRoundTrip : Prop :=
  (∀ i : Instr, i.wf = true → parseText (printInstr i) = some [i]) ∧
  ∀ w : InstrWord, disassemble w = none ↔ decode w = none

/- ## Word primitives -/

/-- 40_word_alu.md rules R91 to R94: the bitwise functions bit by bit, within `W` bits, and their corner cases. -/
def Obligations.BitwisePrimitives : Prop :=
  ∀ w a b : Nat, a < 2 ^ w → b < 2 ^ w →
    (andW a b < 2 ^ w ∧ orW a b < 2 ^ w ∧ xorW a b < 2 ^ w ∧ notW w a < 2 ^ w) ∧
    (∀ i, (andW a b).testBit i = (a.testBit i && b.testBit i) ∧ (orW a b).testBit i = (a.testBit i || b.testBit i) ∧
      (xorW a b).testBit i = (a.testBit i ^^ b.testBit i) ∧
      (notW w a).testBit i = (decide (i < w) && !a.testBit i)) ∧
    (andW a 0 = 0 ∧ andW a (wordMask w) = a ∧ andW a a = a) ∧
    (orW a 0 = a ∧ orW a (wordMask w) = wordMask w ∧ orW a a = a) ∧
    (xorW a 0 = a ∧ xorW a (wordMask w) = notW w a ∧ xorW a a = 0) ∧
    (notW w 0 = wordMask w ∧ notW w (wordMask w) = 0 ∧ notW w (notW w a) = a ∧ notW w a = a ^^^ wordMask w)

/-- 40_word_alu.md section 3 (for a distance of `W` or more, the spec's own decision D24): the logical shifts bit by
bit, zero filled, the bits shifted out lost. -/
def Obligations.ShiftPrimitives : Prop :=
  ∀ w a n : Nat, a < 2 ^ w →
    (∀ i, (shlW w a n).testBit i = (decide (n ≤ i) && decide (i < w) && a.testBit (i - n)) ∧
      (shrW a n).testBit i = a.testBit (i + n)) ∧
    shlW w a 0 = a ∧ shrW a 0 = a ∧ (w ≤ n → shlW w a n = 0 ∧ shrW a n = 0) ∧
    (1 ≤ w → shrW (wordMask w) 1 = 2 ^ (w - 1) - 1)

/-- 40_word_alu.md section 4: the laws of the word functions, for every `W` (some of them marked derived there). -/
def Obligations.WordLaws : Prop :=
  ∀ w a b c : Nat, a < 2 ^ w → b < 2 ^ w → c < 2 ^ w →
    (andW a b = andW b a ∧ orW a b = orW b a ∧ xorW a b = xorW b a) ∧
    (andW (andW a b) c = andW a (andW b c) ∧ orW (orW a b) c = orW a (orW b c) ∧
      xorW (xorW a b) c = xorW a (xorW b c)) ∧
    (shlW w a 1 = (2 * a) % 2 ^ w ∧ shrW a 1 = a / 2) ∧
    (∀ n, shlW w a n < 2 ^ w ∧ shrW a n < 2 ^ w) ∧
    (w = 1 → shlW w a 1 = 0 ∧ shrW a 1 = 0)

/-- 40_word_alu.md rule R99: the rendering has exactly `W` characters `0` and `1`, most significant bit first. -/
def Obligations.RenderingHasWidthDigits : Prop :=
  ∀ w a : Nat, (renderW w a).length = w ∧
    ∀ k, k < w → (renderW w a)[k]? = some (if a.testBit (w - 1 - k) then '1' else '0')

/- ## Instructions -/

/-- 41_logic.md rule R100. -/
def Obligations.OrInstruction : Prop :=
  Spec.AluRule .orRetained .orDirect 0x0000 fun s => s.acc ||| s.dr

/-- 41_logic.md rule R101. -/
def Obligations.AndInstruction : Prop :=
  Spec.AluRule .andRetained .andDirect 0x1000 fun s => s.acc &&& s.dr

/-- 41_logic.md rule R102. -/
def Obligations.XorInstruction : Prop :=
  Spec.AluRule .xorRetained .xorDirect 0x2000 fun s => s.acc ^^^ s.dr

/-- 41_logic.md rule R103. -/
def Obligations.NotInstruction : Prop :=
  Spec.AluRule .notRetained .notDirect 0x3000 fun s => (2 ^ s.cfg.w - 1) - s.acc

/-- 42_shift.md rule R104, with its corner cases: the bits of the result, and that `W` of them in a row clear ACC. -/
def Obligations.LshiftInstruction : Prop :=
  (Spec.AluRule .lshiftRetained .lshiftDirect 0x4000 fun s => (2 * s.acc) % 2 ^ s.cfg.w) ∧
  ∀ w a : Nat, a < 2 ^ w →
    (∀ i, ((2 * a) % 2 ^ w).testBit i = (decide (1 ≤ i) && decide (i < w) && a.testBit (i - 1))) ∧
    Nat.iterate (fun x => (2 * x) % 2 ^ w) w a = 0

/-- 42_shift.md rule R105, with its corner cases: the bits of the result, and that `W` of them in a row clear ACC. -/
def Obligations.RshiftInstruction : Prop :=
  (Spec.AluRule .rshiftRetained .rshiftDirect 0x5000 fun s => s.acc / 2) ∧
  ∀ w a : Nat, a < 2 ^ w →
    (∀ i, (a / 2).testBit i = (decide (i + 1 < w) && a.testBit (i + 1))) ∧ Nat.iterate (fun x => x / 2) w a = 0

/-- 43_load_store.md rule R106. -/
def Obligations.LoadInstruction : Prop :=
  Spec.AluRule .loadRetained .loadDirect 0x6000 fun s => s.dr

/-- 43_load_store.md, the rule of `store` (that its execute phase cannot fault is marked derived there): the execute
phase writes ACC to the cell AR selects, and to DR, and leaves every other cell and register as it was; the
fetch/decode phase is the common one. -/
def Obligations.StoreInstruction : Prop :=
  (encode .storeRetained).toNat = 0x7000 ∧
  (∀ a, a < 2048 → (encode (.storeDirect a)).toNat = 0x7800 + a) ∧
  ∀ s : State, s.Inv → ∀ i : Instr, (i = .storeRetained ∨ ∃ a, i = .storeDirect a) →
    (s.phase = .decoded → ∃ t, exec i s = .next t ∧ Spec.StoredAt s.ar.toNat s t) ∧
    (s.phase = .idle → effectiveAddr i s < s.cfg.size →
      let d : State :=
        { s with ir := encode i, irv := true, ar := BitVec.ofNat 11 (effectiveAddr i s),
                 dr := s.cell (effectiveAddr i s), phase := .decoded }
      (s.cfg.phaseModel = .split → exec i s = .next d) ∧
      (s.cfg.phaseModel = .fused → ∃ t, exec i s = .next t ∧ Spec.StoredAt (effectiveAddr i s) d t)) ∧
    (s.phase = .idle → s.cfg.size ≤ effectiveAddr i s →
      exec i s = .fault (.outOfRange (effectiveAddr i s) (some s.pc)))

/-- 20_memory.md sections 3 and 6 and 10_state.md: no instruction, in any state, changes the program, RUN, LATE or the
parameters of the core, and it changes no cell but the one AR selects after it. -/
def Obligations.InstructionFrame : Prop :=
  ∀ (i : Instr) (s t : State), Memory.wf s.mem = true → exec i s = .next t →
    t.imem = s.imem ∧ t.run = s.run ∧ t.late = s.late ∧ t.cfg = s.cfg ∧
    (i.op ≠ .store → ∀ b, t.cell b = s.cell b) ∧
    (i.op = .store → t.acc = s.acc ∧ ∀ b, b ≠ t.ar.toNat → t.cell b = s.cell b)

/- ## The two phases and `step` -/

/-- 30_encoding.md section 1 and 43_load_store.md, the addressing modes: the effective address is the argument, or
without one the present AR; no other register or cell takes part. -/
def Obligations.OperandAddress : Prop :=
  ∀ (o : Op) (s : State), effectiveAddr (Instr.ofOp o none) s = s.ar.toNat ∧
    ∀ a, effectiveAddr (Instr.ofOp o (some a)) s = a

/-- 44_sequencer.md section 2, the fetch/decode phase (the order of its checks is the spec's own decision D10): a
reserved word, whatever its low bits, is UnknownOperation; an address at or above SIZE is OutOfRange; otherwise IR, IRV,
AR, DR and PHASE are written and nothing else. -/
def Obligations.FetchDecodePhase : Prop :=
  ∀ (s : State) (w : InstrWord), s.phase = .idle → s.imem[s.pc]? = some w → s.cfg.phaseModel = .split →
    (decode w = none → step s = .fault (.unknownOperation w s.pc)) ∧
    ∀ i, decode w = some i →
      (s.cfg.size ≤ effectiveAddr i s → step s = .fault (.outOfRange (effectiveAddr i s) (some s.pc))) ∧
      (effectiveAddr i s < s.cfg.size →
        step s = .next
          { s with ir := w, irv := true, ar := BitVec.ofNat 11 (effectiveAddr i s),
                   dr := s.cell (effectiveAddr i s), phase := .decoded })

/-- 44_sequencer.md section 2, the execute phase (its totality is marked derived there): with PHASE = Decoded every
instruction answers a next state, PC is one more, PHASE is Idle, and AR, IR, IRV, RUN and the program are unchanged. -/
def Obligations.ExecutePhaseNeverFaults : Prop :=
  ∀ s : State, s.Inv → s.phase = .decoded →
    (∃ t, step s = .next t) ∧
    ∀ i : Instr, ∃ t, exec i s = .next t ∧ t.pc = s.pc + 1 ∧ t.phase = .idle ∧ t.ar = s.ar ∧ t.ir = s.ir ∧
      t.irv = s.irv ∧ t.run = s.run ∧ t.late = s.late ∧ t.imem = s.imem ∧ t.cfg = s.cfg

/-- 44_sequencer.md rule R113: PC changes in one place only, by one, at the end of every execute phase. -/
def Obligations.PcAdvancesOnlyInExecute : Prop :=
  ∀ s : State, s.Inv →
    (s.phase = .decoded → ∃ t, step s = .next t ∧ t.pc = s.pc + 1 ∧ t.pc ≤ t.len) ∧
    (s.phase = .idle → s.cfg.phaseModel = .split → (perform .step s).state.pc = s.pc) ∧
    (∀ f, step s = .fault f → (perform .step s).state.pc = s.pc) ∧
    (∀ e : Event, e ≠ .reset → (perform e s).state.pc = s.pc ∨
      ((perform e s).state.pc = s.pc + 1 ∧ (perform e s).state.phase = .idle ∧
        (e = .step ∨ e = .auto ∨ e = .lateStep)))

/-- 44_sequencer.md rule R114: `step` under the split model performs nothing, the fetch/decode phase or the execute
phase, whether RUN is set or not, and a step that faults changes no state. -/
def Obligations.StepPerformsOnePhase : Prop :=
  ∀ s : State, s.Inv → s.cfg.phaseModel = .split →
    (s.pc = s.len → perform .step s = ⟨s, .done⟩) ∧
    (s.pc ≠ s.len → s.phase = .idle → ∃ w, s.imem[s.pc]? = some w ∧
      ((decode w = none ∧ step s = .fault (.unknownOperation w s.pc)) ∨
       (∃ i, decode w = some i ∧ step s = exec i s))) ∧
    (s.pc ≠ s.len → s.phase = .decoded → ∃ i, decode s.ir = some i ∧ step s = exec i s) ∧
    (∀ f, step s = .fault f → perform .step s = ⟨s, .fault f⟩ ∧
      perform .step (perform .step s).state = ⟨s, .fault f⟩) ∧
    (∀ (b : Bool) (t : State), step s = .next t → step { s with run := b } = .next { t with run := b }) ∧
    (∀ (b : Bool) (f : Fault), step s = .fault f → step { s with run := b } = .fault f)

/-- 44_sequencer.md section 3: a step at a state is `exec` of the instruction due there: the decoded word at PC with
PHASE = Idle, the decoded word of IR with PHASE = Decoded. -/
def Obligations.StepRunsDecodedInstruction : Prop :=
  ∀ (s : State) (w : InstrWord) (i : Instr), decode w = some i →
    (s.phase = .idle → s.imem[s.pc]? = some w → step s = exec i s) ∧
    (s.phase = .decoded → s.irv = true → s.ir = w → s.pc ≠ s.len → step s = exec i s)

/-- 44_sequencer.md rule R116: the number of steps of a fault-free program, and that further steps are no-ops. -/
def Obligations.StepCounts : Prop :=
  ∀ s : State, s.Inv → s.pc = 0 → s.phase = .idle → s.faultFree →
    (s.cfg.phaseModel = .split →
      (∀ k, k ≤ 2 * s.len → ∃ t : State, Host.Core.run Sys2Proof.core k s = .next t ∧ t.pc = k / 2 ∧
        t.phase = if k % 2 = 1 then Phase.decoded else Phase.idle) ∧
      ∃ t : State, t.pc = s.len ∧ ∀ k, 2 * s.len ≤ k → Host.Core.run Sys2Proof.core k s = .next t) ∧
    (s.cfg.phaseModel = .fused →
      (∀ k, k ≤ s.len → ∃ t : State, Host.Core.run Sys2Proof.core k s = .next t ∧ t.pc = k ∧ t.phase = .idle) ∧
      ∃ t : State, t.pc = s.len ∧ ∀ k, s.len ≤ k → Host.Core.run Sys2Proof.core k s = .next t)

/-- 44_sequencer.md section 3, the fused model: one fused step is two split steps with no host operation between, and
faults where the first of them does (marked derived there). -/
def Obligations.FusedStepIsTwoSplitSteps : Prop :=
  ∀ s : State, s.Inv → s.phase = .idle → s.cfg.phaseModel = .split → s.pc ≠ s.len →
    let fuse : State → State := fun u => { u with cfg := { u.cfg with phaseModel := .fused } }
    (∀ f, step s = .fault f → step (fuse s) = .fault f) ∧
    (∀ t, step s = .next t → ∃ u, step t = .next u ∧ step (fuse s) = .next (fuse u))

/-- 44_sequencer.md section 6, the instruction as one function (marked derived there): two split steps of a legal word
are the whole instruction, or the first of them is OutOfRange. -/
def Obligations.WholeInstructionFunction : Prop :=
  ∀ (s : State) (w : InstrWord) (i : Instr), s.Inv → s.phase = .idle → s.cfg.phaseModel = .split →
    s.imem[s.pc]? = some w → decode w = some i →
    (s.cfg.size ≤ effectiveAddr i s → step s = .fault (.outOfRange (effectiveAddr i s) (some s.pc))) ∧
    (effectiveAddr i s < s.cfg.size → ∃ t u, step s = .next t ∧ step t = .next u ∧
      u.acc = Spec.instrAcc i.op s.cfg.w s.acc (s.cell (effectiveAddr i s)) ∧
      u.ar.toNat = effectiveAddr i s ∧
      (∀ b, u.cell b = if i.op = .store ∧ b = effectiveAddr i s then s.acc else s.cell b) ∧
      u.pc = s.pc + 1 ∧ u.ir = w ∧ u.irv = true ∧ u.dr = u.cell (effectiveAddr i s) ∧ u.phase = .idle ∧
      u.imem = s.imem ∧ u.run = s.run ∧ u.late = s.late ∧ u.cfg = s.cfg)

/- ## `play`, automatic steps, `stop` -/

/-- 44_sequencer.md section 4 (on a complete program and while RUN = 1 the spec's own decisions D12, D13): `play` sets
RUN unless the program is complete, reports nothing and changes nothing else but the hidden bit LATE, which it clears.
That `play` on a complete program leaves LATE too is the model's reading, notes/assumptions/5.md: the spec says of
`play` there that nothing happens, and elsewhere that `play` clears LATE. -/
def Obligations.PlaySetsRun : Prop :=
  ∀ s : State,
    (s.pc = s.len → perform .play s = ⟨s, .done⟩) ∧
    (s.pc ≠ s.len → perform .play s = ⟨{ s with run := true, late := false }, .done⟩) ∧
    (s.run = true → s.late = false → perform .play s = ⟨s, .done⟩)

/-- 44_sequencer.md section 4, automatic steps (that a fault clears RUN is the spec's own decision D11): what the
sequencer does at its turn. -/
def Obligations.AutomaticStep : Prop :=
  ∀ s : State,
    (s.run = false → perform .auto s = ⟨s, .done⟩) ∧
    (s.run = true → s.pc = s.len → perform .auto s = ⟨{ s with run := false }, .done⟩) ∧
    (s.run = true → s.pc ≠ s.len →
      (∀ f, step s = .fault f → perform .auto s = ⟨{ s with run := false }, .fault f⟩) ∧
      (∀ t, step s = .next t → t.pc = t.len → perform .auto s = ⟨{ t with run := false }, .done⟩) ∧
      (∀ t, step s = .next t → t.pc ≠ t.len → perform .auto s = ⟨t, .done⟩ ∧ t.run = true))

/-- 44_sequencer.md section 4: a `play` on a fault-free program with no further host operation ends with `PC == LEN`
and RUN = 0, in at most two turns for each instruction left. -/
def Obligations.PlayReachesCompletion : Prop :=
  ∀ s : State, s.Inv → s.run = true → s.pc < s.len → s.faultFree → ∀ n, 2 * (s.len - s.pc) ≤ n →
    let t := performAll (List.replicate n .auto) s
    t.pc = s.len ∧ t.run = false ∧ t.phase = .idle ∧ t.imem = s.imem

/-- 44_sequencer.md section 4: `stop` clears RUN, is idempotent, and changes nothing else (but the hidden bit LATE of a
core whose STOP_SLACK may be drawn, where the model's reading is notes/assumptions/5.md). -/
def Obligations.StopClearsRun : Prop :=
  ∀ (s : State) (b : Bool),
    (∃ l, perform (.stop b) s = ⟨{ s with run := false, late := l }, .done⟩) ∧
    perform (.stop b) (perform (.stop b) s).state = perform (.stop b) s ∧
    (s.cfg.stopSlack = false → s.late = false →
      perform (.stop b) s = ⟨{ s with run := false }, .done⟩ ∧
      (s.run = false → perform (.stop b) s = ⟨s, .done⟩))

/-- 44_sequencer.md section 4, steps after `stop` (STOP_SLACK 0 in hardware is the spec's own decision D14; the model's
reading is notes/assumptions/5.md): at most one late step, and none where STOP_SLACK is 0. -/
def Obligations.AtMostOneLateStep : Prop :=
  ∀ (s : State) (b : Bool),
    (perform (.stop b) s).state.late = (b && s.cfg.stopSlack) ∧
    (s.late = false → perform .lateStep s = ⟨s, .done⟩) ∧
    (s.late = true → s.pc = s.len → perform .lateStep s = ⟨s, .done⟩) ∧
    (s.late = true → s.pc ≠ s.len →
      perform .lateStep s = ⟨{ (perform .step s).state with late := false }, (perform .step s).report⟩) ∧
    (s.Inv → s.cfg.stopSlack = false → s.late = false)

/- ## The host port -/

/-- 45_host_port.md section 1 (operands of any width are the spec's own decision D17): the host `write` stores the
masked value in one cell and refreshes DR, or faults and changes nothing. -/
def Obligations.HostWriteStoresAndRefreshes : Prop :=
  ∀ (s : State) (v a : Nat), s.Inv →
    (s.cfg.size ≤ a → perform (.write v a) s = ⟨s, .fault (.outOfRange a none)⟩) ∧
    (a < s.cfg.size → ∃ t, perform (.write v a) s = ⟨t, .done⟩ ∧ t.cell a = v % 2 ^ s.cfg.w ∧
      (∀ b, b ≠ a → t.cell b = s.cell b) ∧ t.dr = t.cell s.ar.toNat ∧
      t = { s with mem := t.mem, dr := t.dr })

/-- 45_host_port.md section 2, `append` (the capacity is the spec's own decision D16): it adds one word at the end and
changes nothing else, or is refused by a full store and changes nothing. -/
def Obligations.AppendAddsAtTheEnd : Prop :=
  ∀ (s : State) (w : InstrWord),
    (s.cfg.imemCap = none → perform (.append w) s = ⟨{ s with imem := s.imem ++ [w] }, .done⟩) ∧
    (∀ n, s.cfg.imemCap = some n →
      (s.len < n → perform (.append w) s = ⟨{ s with imem := s.imem ++ [w] }, .done⟩) ∧
      (n ≤ s.len → perform (.append w) s = ⟨s, .refused .imemFull⟩)) ∧
    perform (.append w) s = perform (.insert w s.len) s

/-- 45_host_port.md section 2, `insert` (that PC and PHASE stay is the spec's own decision D15, the capacity D16): a
position beyond LEN faults; otherwise the words at and above the position move up by one, those below stay, and nothing
else changes. That a position beyond LEN faults also where the store is full is the model's choice,
notes/assumptions/6.md: the spec does not order the two checks. -/
def Obligations.InsertMovesUp : Prop :=
  ∀ (s : State) (w : InstrWord) (p : Nat),
    (s.len < p → perform (.insert w p) s = ⟨s, .fault (.outOfRange p none)⟩) ∧
    (p ≤ s.len → s.imemFull = true → perform (.insert w p) s = ⟨s, .refused .imemFull⟩) ∧
    (p ≤ s.len → s.imemFull = false → ∃ t, perform (.insert w p) s = ⟨t, .done⟩ ∧ t = { s with imem := t.imem } ∧
      t.len = s.len + 1 ∧ t.imem[p]? = some w ∧ (∀ k, k < p → t.imem[k]? = s.imem[k]?) ∧
      (∀ k, p ≤ k → t.imem[k + 1]? = s.imem[k]?))

/-- 45_host_port.md section 2, insertion during a run (marked derived there): with PHASE = Decoded the execute phase
uses IR; after an insertion at or below PC the instruction in progress is at the next index and is fetched again; with
PHASE = Idle an insertion at PC itself is fetched next. -/
def Obligations.InsertDuringRun : Prop :=
  ∀ (s : State) (w : InstrWord) (p : Nat), s.Inv → s.imemFull = false → p ≤ s.pc →
    let t := (perform (.insert w p) s).state
    t.pc = s.pc ∧ t.phase = s.phase ∧ t.imem[s.pc + 1]? = s.imem[s.pc]? ∧
    (p = s.pc → t.imem[t.pc]? = some w) ∧
    (p < s.pc → t.imem[t.pc]? = s.imem[s.pc - 1]?) ∧
    (s.phase = .decoded → ∃ u v, step s = .next u ∧ step t = .next v ∧ v = { u with imem := t.imem } ∧
      v.imem[v.pc]? = s.imem[s.pc]?)

/-- 20_memory.md section 5, host writes between the phases (marked derived there): a write to the cell AR selects
becomes the operand of the pending instruction; a write to another cell does not affect it. -/
def Obligations.HostWriteBetweenPhases : Prop :=
  ∀ (s : State) (v a : Nat), s.Inv → s.phase = .decoded → a < s.cfg.size →
    let t := (perform (.write v a) s).state
    t.phase = .decoded ∧ t.ir = s.ir ∧ t.acc = s.acc ∧
    (a = s.ar.toNat → t.dr = v % 2 ^ s.cfg.w ∧ ∀ i, decode s.ir = some i →
      ∃ u, step t = .next u ∧ u.acc = Spec.instrAcc i.op s.cfg.w s.acc (v % 2 ^ s.cfg.w)) ∧
    (a ≠ s.ar.toNat → t.dr = s.dr ∧ ∃ u u', step s = .next u ∧ step t = .next u' ∧
      u' = { u with mem := u'.mem } ∧ u'.cell a = v % 2 ^ s.cfg.w ∧ ∀ b, b ≠ a → u'.cell b = u.cell b)

/-- 45_host_port.md section 3: the fields of the snapshot, and that taking one changes nothing. -/
def Obligations.SnapshotShowsTheState : Prop :=
  ∀ s : State, perform .snapshot s = ⟨s, .done⟩ ∧
    (snapshot s).accumulator = s.acc ∧ (snapshot s).addressRegister = s.ar ∧ (snapshot s).dataRegister = s.dr ∧
    (s.irv = false → (snapshot s).instructionRegister = none) ∧
    (∀ i, s.irv = true → decode s.ir = some i →
      (snapshot s).instructionRegister = some (i.op, match i.arg with | some a => [a] | none => [])) ∧
    (snapshot s).memory.length = s.cfg.size ∧
    (∀ a, a < s.cfg.size → (snapshot s).memory[a]? = some (s.cell a)) ∧
    (snapshot s).wordSize = s.cfg.w ∧ (snapshot s).instructionList = s.imem ∧ (snapshot s).counter = s.pc ∧
    ((snapshot s).complete = true ↔ s.pc = s.len)

/-- 45_host_port.md section 3 (marked derived there): two states of one core with equal snapshots, PHASE and RUN (and,
in this model, the hidden bit LATE) are the same state. That their IR agree while IRV = 0 is the model's choice,
notes/assumptions/3.md: IR is 0x0000 until the first fetch (the invariant `irBlank`), a value the spec leaves open. -/
def Obligations.SnapshotDeterminesState : Prop :=
  ∀ s t : State, s.Inv → t.Inv → s.cfg = t.cfg → snapshot s = snapshot t → s.phase = t.phase → s.run = t.run →
    s.late = t.late → s = t

/- ## Memory -/

/-- 20_memory.md rules R51, R52 and R53: reads and writes of one cell. -/
def Obligations.MemoryAccess : Prop :=
  ∀ (s : State) (a : Nat),
    (a < s.cfg.size → memRead s a = .ok (s.cell a)) ∧
    (s.cfg.size ≤ a → memRead s a = .error (.outOfRange a none)) ∧
    (∀ v, s.cfg.size ≤ a → memWrite s a v = .error (.outOfRange a none)) ∧
    (∀ v, a < s.cfg.size → Memory.wf s.mem = true → ∃ t, memWrite s a v = .ok t ∧
      memRead t a = .ok (v % 2 ^ s.cfg.w) ∧ (∀ b, b ≠ a → t.cell b = s.cell b) ∧ t = { s with mem := t.mem })

/-- 10_state.md section 2, MEM: it is written by the host `write`, by `reset` and by the execute phase of `store` at AR,
and by nothing else. -/
def Obligations.MemoryWrittenOnlyByStoreAndHost : Prop :=
  ∀ (s : State) (e : Event) (b : Nat), s.Inv → (perform e s).state.cell b ≠ s.cell b →
    e = .reset ∨ (∃ v, e = .write v b ∧ b < s.cfg.size) ∨
    ((e = .step ∨ e = .auto ∨ e = .lateStep) ∧ (perform e s).state.ar.toNat = b ∧
      (perform e s).state.pc = s.pc + 1 ∧
      ∃ i, decode (perform e s).state.ir = some i ∧ i.op = .store ∧ (perform e s).state.cell b = s.acc)

/-- 43_load_store.md section on addressing modes (marked derived there): however long it runs, a program touches only
the cells whose numbers are written in it and the cell AR selects at its start. -/
def Obligations.ProgramTouchesOnlyNamedCells : Prop :=
  ∀ (s : State) (n : Nat), s.Inv →
    let t := performAll (List.replicate n .step) s
    let named : Nat → Prop := fun b => b = s.ar.toNat ∨ ∃ w ∈ s.imem, ∃ i, decode w = some i ∧ i.arg = some b
    named t.ar.toNat ∧ ∀ b, t.cell b ≠ s.cell b → named b

/- ## Faults -/

/-- 60_exceptions.md section 2 (that an automatic step clears RUN is the spec's own decision D11, what a late step
leaves of LATE is the model's, notes/assumptions/5.md): an operation that faults or is refused changes nothing else. -/
def Obligations.FaultChangesNothing : Prop :=
  ∀ (e : Event) (s : State), (perform e s).report ≠ .done →
    (e ≠ .auto → e ≠ .lateStep → (perform e s).state = s) ∧
    (e = .auto → (perform e s).state = { s with run := false }) ∧
    (e = .lateStep → (perform e s).state = { s with late := false })

/-- 60_exceptions.md section 2 (marked derived there): a fault of `step` repeats on every later `step`, and the program
does not complete. -/
def Obligations.FaultRepeats : Prop :=
  ∀ (s : State) (f : Fault), step s = .fault f → ∀ n,
    performAll (List.replicate n .step) s = s ∧
    (perform .step (performAll (List.replicate n .step) s)).report = .fault f ∧ s.pc ≠ s.len

/-- 60_exceptions.md section 1, every cause of every fault (the reported values are the spec's own decision D9), and
with it that InvalidArgument and InvalidState are never raised. -/
def Obligations.EveryCauseOfEveryFault : Prop :=
  ∀ (s : State) (e : Event) (f : Fault), s.Inv → (perform e s).report = .fault f →
    ((e = .step ∨ e = .auto ∨ e = .lateStep) ∧ s.phase = .idle ∧ ∃ w, s.imem[s.pc]? = some w ∧
      ((decode w = none ∧ f = .unknownOperation w s.pc) ∨
       ∃ i a, decode w = some i ∧ i.arg = some a ∧ s.cfg.size ≤ a ∧ f = .outOfRange a (some s.pc))) ∨
    (∃ v a, e = .write v a ∧ s.cfg.size ≤ a ∧ f = .outOfRange a none) ∨
    (∃ w p, e = .insert w p ∧ s.len < p ∧ f = .outOfRange p none)

/-- 60_exceptions.md section 1 (the numbers are the spec's own decision D9): the codes of the fault kinds. -/
def Obligations.FaultCodes : Prop :=
  Report.done.code = 0 ∧ Fault.invalidArgument.code = 1 ∧ (∀ v p, (Fault.outOfRange v p).code = 2) ∧
  (∀ w p, (Fault.unknownOperation w p).code = 3) ∧ Fault.invalidState.code = 4

/-- 60_exceptions.md section 1, OutOfRange: which addresses and positions are out of range, at every boundary, that
position LEN appends, and that an instruction without an argument never faults so. The code and the reported values, PC
among them, are the spec's own decision D9 (notes/assumptions/14.md); that a position beyond LEN is OutOfRange also
where the store is full is the model's choice, notes/assumptions/6.md. -/
def Obligations.OutOfRangeExactly : Prop :=
  (∀ v p, (Fault.outOfRange v p).code = 2) ∧
  ∀ s : State, s.Inv →
    (∀ a, memRead s a = .error (.outOfRange a none) ↔ s.cfg.size ≤ a) ∧
    (∀ w, perform (.insert w s.len) s = perform (.append w) s) ∧
    (∀ v a, (perform (.write v a) s).report = .fault (.outOfRange a none) ↔ s.cfg.size ≤ a) ∧
    (∀ w p, (perform (.insert w p) s).report = .fault (.outOfRange p none) ↔ s.len < p) ∧
    (s.phase = .idle → ∀ (o : Op) (a : Nat),
      exec (Instr.ofOp o (some a)) s = .fault (.outOfRange a (some s.pc)) ↔ s.cfg.size ≤ a) ∧
    (∀ (o : Op) (f : Fault), exec (Instr.ofOp o none) s ≠ .fault f)

/-- 60_exceptions.md rule R156: UnknownOperation is raised when the fetched word is not one of the eight operations,
before any register is written, and `write` is not one of them. The word and the PC it reports are the spec's own
decision D9 (notes/assumptions/14.md), not R156's. -/
def Obligations.UnknownOperationExactly : Prop :=
  (∀ (s : State) (w : InstrWord) (p : Nat), s.Inv →
    (step s = .fault (.unknownOperation w p) ↔
      s.phase = .idle ∧ p = s.pc ∧ s.imem[s.pc]? = some w ∧ decode w = none) ∧
    (step s = .fault (.unknownOperation w p) → (perform .step s).state = s)) ∧
  (∀ w p, (Fault.unknownOperation w p).code = 3) ∧
  opOfName "write".toList = none ∧ ∀ cs o, opOfName cs = some o ↔ cs = opName o

/- ## Reset and construction -/

/-- 70_reset_and_hazards.md section 1 and 10_state.md section 5 (all values but those of PC and MEM are the spec's own
decisions D7 and D8): what `reset` leaves. The value of IR is the model's choice, notes/assumptions/3.md; it enters only
where the reference core is said to be in `State.reset`. -/
def Obligations.ResetValues : Prop :=
  ∀ s : State, (perform .reset s).report = .done ∧
    let t := (perform .reset s).state
    t.acc = s.cfg.resetAcc ∧ (s.cfg = Config.reference → t.acc = 0 ∧ t = State.reset) ∧
    t.ar = 0 ∧ t.dr = 0 ∧ t.irv = false ∧ t.pc = 0 ∧ t.phase = .idle ∧ t.run = false ∧ t.late = false ∧
    t.len = 0 ∧ (∀ a, t.cell a = 0) ∧ t.cfg = s.cfg

/-- 70_reset_and_hazards.md section 1 (values by the spec's own decision D7): right after reset the program is complete,
and `step` and `play` do nothing until the host appends an instruction. -/
def Obligations.AfterResetNothingRuns : Prop :=
  step State.reset = .next State.reset ∧ perform .play State.reset = ⟨State.reset, .done⟩ ∧
  perform .auto State.reset = ⟨State.reset, .done⟩ ∧ (snapshot State.reset).complete = true ∧
  (snapshot State.reset).memory = List.replicate 16 0 ∧ (snapshot State.reset).instructionRegister = none ∧
  ∀ (c : Config) (w : InstrWord), c.imemCap = none →
    (perform (.append w) (State.initial c)).state.complete = false

/-- 00_scope.md section 3 and 60_exceptions.md section 1 (the bounds on SIZE are the spec's own decision D5): a core is
built exactly from parameters within the constraints, and starts in the state `reset` leaves. -/
def Obligations.CoresAreBuiltWithinConstraints : Prop :=
  ∀ c : Config,
    (1 ≤ c.w ∧ 1 ≤ c.size ∧ c.size ≤ 2048 ∧ c.resetAcc < 2 ^ c.w →
      State.build c = .next (State.initial c) ∧ ∀ s : State, s.cfg = c → (perform .reset s).state = State.initial c) ∧
    (¬ (1 ≤ c.w ∧ 1 ≤ c.size ∧ c.size ≤ 2048 ∧ c.resetAcc < 2 ^ c.w) → State.build c = .refused .notBuilt)

/-- 10_state.md section 3 at the start (it holds there by the reset values of the spec's own decision D7): every core
that can be built starts with the invariants. One of them, `irBlank`, is the model's choice of IR,
notes/assumptions/3.md. -/
def Obligations.ConstructionHasInvariants : Prop :=
  State.reset.Inv ∧ ∀ c : Config, c.wf = true → (State.initial c).Inv

/- ## Invariants -/

/-- 10_state.md section 3: from every state with the invariants, a `step` that answers a state answers one with them. -/
def Obligations.StepKeepsInvariants : Prop :=
  ∀ s t : State, s.Inv → step s = .next t → t.Inv

/-- 10_state.md section 3: every operation of either agent keeps the invariants, whether it faults or not (for `irBlank`
and `reset`, by the model's choice of IR, notes/assumptions/3.md). -/
def Obligations.EveryOperationKeepsInvariants : Prop :=
  ∀ (s : State) (e : Event), s.Inv → (perform e s).state.Inv

/-- 10_state.md rule R29: at every step boundary, after any sequence of operations of the two agents on any core that
can be built, DR is `MEM[AR]`. -/
def Obligations.DataRegisterMirrorsMemory : Prop :=
  ∀ (c : Config) (es : List Event), c.wf = true →
    let s := performAll es (State.initial c)
    s.dr = s.cell s.ar.toNat

/-- 10_state.md section 3 and 00_scope.md section 4: every interleaving of operations of the two agents, from the
construction of any core, keeps the ranges of all registers and cells and never faults with a kind the hardware never
raises (for `irBlank`, by the model's choice of IR, notes/assumptions/3.md). -/
def Obligations.EveryReachableStateIsSafe : Prop :=
  ∀ (c : Config) (es : List Event), c.wf = true →
    let s := performAll es (State.initial c)
    s.Inv ∧ s.cfg = c ∧ s.acc < 2 ^ c.w ∧ s.dr < 2 ^ c.w ∧ (∀ a, s.cell a < 2 ^ c.w) ∧ s.ar.toNat < c.size ∧
    s.pc ≤ s.len ∧ ∀ e, (perform e s).report ≠ .fault .invalidArgument ∧
      (perform e s).report ≠ .fault .invalidState ∧ (perform e s).report ≠ .refused .fetchOutsideProgram

/-- 70_reset_and_hazards.md section 1: the parameters are fixed when the core is built. -/
def Obligations.ParametersNeverChange : Prop :=
  ∀ (e : Event) (s : State), (perform e s).state.cfg = s.cfg

/-- 20_memory.md section 3: short of `reset`, no operation removes, changes or reorders the instructions of the
program, and LEN rises only by `append` and `insert`, by one. -/
def Obligations.ProgramOnlyGrows : Prop :=
  ∀ (e : Event) (s : State), e ≠ .reset →
    s.imem.Sublist (perform e s).state.imem ∧
    ((perform e s).state.imem = s.imem ∨
      ((perform e s).state.len = s.len + 1 ∧ ((∃ w, e = .append w) ∨ ∃ w p, e = .insert w p)))
end

