-- ==== Sys2Proof/Laws/Decode.lean ====
section
/-! SUPPORT. The fields of an encoded word, and what decoding a word can answer. -/

namespace Sys2Proof

theorem Op.ofCode_code (o : Op) : Op.ofCode o.code = some o := by cases o <;> rfl

theorem Op.code_of_ofCode {c : BitVec 4} {o : Op} (h : Op.ofCode c = some o) : o.code = c := by
  revert c o; decide

@[simp] theorem Instr.op_ofOp (o : Op) (arg : Option Nat) : (Instr.ofOp o arg).op = o := by
  cases o <;> cases arg <;> rfl

@[simp] theorem Instr.arg_ofOp (o : Op) (arg : Option Nat) : (Instr.ofOp o arg).arg = arg := by
  cases o <;> cases arg <;> rfl

@[simp] theorem Instr.ofOp_op_arg (i : Instr) : Instr.ofOp i.op i.arg = i := by cases i <;> rfl

/-- An instruction is its operation and its argument (R70). -/
theorem Instr.ext_op_arg {i j : Instr} (ho : i.op = j.op) (ha : i.arg = j.arg) : i = j := by
  rw [← i.ofOp_op_arg, ← j.ofOp_op_arg, ho, ha]

/-- Well-formedness is a condition on the argument alone (R79). -/
theorem Instr.wf_iff (i : Instr) : i.wf = true ↔ ∀ a, i.arg = some a → a < 2048 := by
  cases i <;> simp [Instr.wf, Instr.arg]

theorem opcField_append (o : BitVec 4) (p : BitVec 1) (a : BitVec 11) : opcField (o ++ p ++ a) = o := by
  ext k hk
  simp only [opcField, BitVec.getElem_extractLsb', BitVec.getLsbD_append]
  rw [if_neg (by omega), if_neg (by omega)]
  rw [show 12 + k - 11 - 1 = k by omega, BitVec.getLsbD_eq_getElem]

theorem pField_append (o : BitVec 4) (p : BitVec 1) (a : BitVec 11) : pField (o ++ p ++ a) = p.getLsbD 0 := by
  rw [pField, BitVec.getLsbD_append, if_neg (by omega), BitVec.getLsbD_append, if_pos (by omega)]

theorem aField_append (o : BitVec 4) (p : BitVec 1) (a : BitVec 11) : aField (o ++ p ++ a) = a := by
  ext k hk
  simp only [aField, BitVec.getElem_extractLsb', BitVec.getLsbD_append]
  rw [if_pos (by omega), Nat.zero_add, BitVec.getLsbD_eq_getElem]

/-- A word is its three fields (R72). -/
theorem word_eq_append (w : InstrWord) :
    w = opcField w ++ (if pField w then (1 : BitVec 1) else 0) ++ aField w := by
  apply BitVec.eq_of_getLsbD_eq
  intro k hk
  rw [BitVec.getLsbD_append, BitVec.getLsbD_append]
  split
  · simp [aField, *]
  · split
    · obtain rfl : k = 11 := by omega
      unfold pField
      cases w.getLsbD 11 <;> rfl
    · rw [opcField, BitVec.getLsbD_extractLsb']
      simp only [show k - 11 - 1 < 4 by omega, decide_true, Bool.true_and]
      congr 1; omega

/-- What `decodeWord` answers, by the fields of the word (R76, R78). -/
theorem decodeWord_cases (w : InstrWord) :
    (Op.ofCode (opcField w) = none ∧ decodeWord w = .error .opcode) ∨
    (∃ o, Op.ofCode (opcField w) = some o ∧
      ((pField w = true ∧ decodeWord w = .ok (Instr.ofOp o (some (aField w).toNat))) ∨
       (pField w = false ∧ aField w = 0 ∧ decodeWord w = .ok (Instr.ofOp o none)) ∨
       (pField w = false ∧ aField w ≠ 0 ∧ decodeWord w = .error .strayArgument))) := by
  unfold decodeWord
  cases h : Op.ofCode (opcField w) with
  | none => exact .inl ⟨rfl, rfl⟩
  | some o =>
    refine .inr ⟨o, rfl, ?_⟩
    cases hp : pField w with
    | true => exact .inl ⟨rfl, by simp⟩
    | false =>
      by_cases ha : aField w = 0
      · exact .inr (.inl ⟨rfl, ha, by simp [ha]⟩)
      · exact .inr (.inr ⟨rfl, ha, by dsimp only; rw [if_neg (by simp), if_neg ha]⟩)

/-- `decode` answers exactly where `decodeWord` does. -/
theorem decode_eq_some {w : InstrWord} {i : Instr} : decode w = some i ↔ decodeWord w = .ok i := by
  unfold decode; cases decodeWord w <;> simp

/-- `decode` refuses exactly the reserved words (R78). -/
theorem decode_eq_none {w : InstrWord} : decode w = none ↔ ∃ r, decodeWord w = .error r := by
  unfold decode; cases decodeWord w <;> simp

theorem encode_append (i : Instr) :
    encode i = i.op.code ++ (if i.arg.isSome then (1 : BitVec 1) else 0) ++ BitVec.ofNat 11 (i.arg.getD 0) := by
  unfold encode; cases i.arg <;> rfl

@[simp] theorem opcField_encode (i : Instr) : opcField (encode i) = i.op.code := by
  rw [encode_append, opcField_append]

@[simp] theorem pField_encode (i : Instr) : pField (encode i) = i.arg.isSome := by
  rw [encode_append, pField_append]; cases i.arg <;> simp

@[simp] theorem aField_encode (i : Instr) : aField (encode i) = BitVec.ofNat 11 (i.arg.getD 0) := by
  rw [encode_append, aField_append]

/-- Decoding the encoding of an instruction whose argument fits the field (R77), in terms of the triple. -/
theorem decode_encode_of_arg (i : Instr) (h : ∀ a, i.arg = some a → a < 2048) : decode (encode i) = some i := by
  rw [decode_eq_some, decodeWord]
  rw [opcField_encode, Op.ofCode_code, pField_encode, aField_encode]
  cases ha : i.arg with
  | none => simpa [ha] using congrArg (Instr.ofOp i.op) ha.symm |>.trans i.ofOp_op_arg
  | some a =>
    have := h a ha
    simp only [Option.isSome_some, if_true, Option.getD_some, BitVec.toNat_ofNat]
    rw [Nat.mod_eq_of_lt (by omega), ← ha, i.ofOp_op_arg]

/-- A decoded word is the word of its instruction, whose argument fits the field (R77). -/
theorem encode_of_decode {w : InstrWord} {i : Instr} (h : decode w = some i) :
    encode i = w ∧ ∀ a, i.arg = some a → a < 2048 := by
  rw [decode_eq_some] at h
  rcases decodeWord_cases w with ⟨_, h'⟩ | ⟨o, ho, ⟨hp, h'⟩ | ⟨hp, ha, h'⟩ | ⟨_, _, h'⟩⟩ <;>
    rw [h'] at h <;> cases h
  · refine ⟨?_, fun a ha => ?_⟩
    · conv_rhs => rw [word_eq_append w]
      rw [encode_append, Instr.op_ofOp, Instr.arg_ofOp, Op.code_of_ofCode ho, hp]
      simp
    · rw [Instr.arg_ofOp, Option.some.injEq] at ha
      have := (aField w).isLt; omega
  · refine ⟨?_, fun a ha => by simp at ha⟩
    conv_rhs => rw [word_eq_append w]
    rw [encode_append, Instr.op_ofOp, Instr.arg_ofOp, Op.code_of_ofCode ho, hp, ha]
    simp

/-- Decoding is injective (R77, D4). -/
theorem decode_injective {v w : InstrWord} {i : Instr} (hv : decode v = some i) (hw : decode w = some i) : v = w :=
  (encode_of_decode hv).1.symm.trans (encode_of_decode hw).1

/-- The word of an instruction without an argument: OPC and zeros (R77). -/
theorem encode_toNat_retained (i : Instr) (h : i.arg = none) : (encode i).toNat = i.op.code.toNat * 4096 := by
  unfold encode; rw [h]; cases i.op <;> rfl

/-- The word of an instruction with an argument that fits the field: OPC, bit 11 and the argument (R77). -/
theorem encode_toNat_direct (i : Instr) (a : Nat) (h : i.arg = some a) (ha : a < 2048) :
    (encode i).toNat = i.op.code.toNat * 4096 + 2048 + a := by
  rw [encode]; simp only [h]
  rw [BitVec.toNat_append, BitVec.toNat_append, BitVec.toNat_ofNat, ← Nat.shiftLeft_add_eq_or_of_lt (by omega),
    ← Nat.shiftLeft_add_eq_or_of_lt (by decide), Nat.shiftLeft_eq, Nat.shiftLeft_eq]
  simp; omega

end Sys2Proof
end

