-- ==== Sys2Proof/Laws/State.lean ====
section
/-! SUPPORT. What each named update of the state leaves in each field, so that no later proof unfolds one. -/

namespace Sys2Proof.Machine

section setAcc
variable (s : State) (v : Nat)

@[simp] theorem State.setAcc_cfg : (s.setAcc v).cfg = s.cfg := rfl
@[simp] theorem State.setAcc_acc : (s.setAcc v).acc = maskW s.cfg.w v := rfl
@[simp] theorem State.setAcc_ar : (s.setAcc v).ar = s.ar := rfl
@[simp] theorem State.setAcc_dr : (s.setAcc v).dr = s.dr := rfl
@[simp] theorem State.setAcc_ir : (s.setAcc v).ir = s.ir := rfl
@[simp] theorem State.setAcc_irv : (s.setAcc v).irv = s.irv := rfl
@[simp] theorem State.setAcc_pc : (s.setAcc v).pc = s.pc := rfl
@[simp] theorem State.setAcc_phase : (s.setAcc v).phase = s.phase := rfl
@[simp] theorem State.setAcc_run : (s.setAcc v).run = s.run := rfl
@[simp] theorem State.setAcc_late : (s.setAcc v).late = s.late := rfl
@[simp] theorem State.setAcc_imem : (s.setAcc v).imem = s.imem := rfl
@[simp] theorem State.setAcc_mem : (s.setAcc v).mem = s.mem := rfl
end setAcc

section advance
variable (s : State)

@[simp] theorem advance_cfg : (advance s).cfg = s.cfg := rfl
@[simp] theorem advance_acc : (advance s).acc = s.acc := rfl
@[simp] theorem advance_ar : (advance s).ar = s.ar := rfl
@[simp] theorem advance_dr : (advance s).dr = s.dr := rfl
@[simp] theorem advance_ir : (advance s).ir = s.ir := rfl
@[simp] theorem advance_irv : (advance s).irv = s.irv := rfl
@[simp] theorem advance_pc : (advance s).pc = s.pc + 1 := rfl
@[simp] theorem advance_phase : (advance s).phase = .idle := rfl
@[simp] theorem advance_run : (advance s).run = s.run := rfl
@[simp] theorem advance_late : (advance s).late = s.late := rfl
@[simp] theorem advance_imem : (advance s).imem = s.imem := rfl
@[simp] theorem advance_mem : (advance s).mem = s.mem := rfl
end advance

section endRun
variable (s : State)

@[simp] theorem State.endRun_cfg : s.endRun.cfg = s.cfg := rfl
@[simp] theorem State.endRun_acc : s.endRun.acc = s.acc := rfl
@[simp] theorem State.endRun_ar : s.endRun.ar = s.ar := rfl
@[simp] theorem State.endRun_dr : s.endRun.dr = s.dr := rfl
@[simp] theorem State.endRun_ir : s.endRun.ir = s.ir := rfl
@[simp] theorem State.endRun_irv : s.endRun.irv = s.irv := rfl
@[simp] theorem State.endRun_pc : s.endRun.pc = s.pc := rfl
@[simp] theorem State.endRun_phase : s.endRun.phase = s.phase := rfl
@[simp] theorem State.endRun_run : s.endRun.run = false := rfl
@[simp] theorem State.endRun_late : s.endRun.late = s.late := rfl
@[simp] theorem State.endRun_imem : s.endRun.imem = s.imem := rfl
@[simp] theorem State.endRun_mem : s.endRun.mem = s.mem := rfl
end endRun

section initial
variable (c : Config)

@[simp] theorem State.initial_cfg : (State.initial c).cfg = c := rfl
@[simp] theorem State.initial_acc : (State.initial c).acc = c.resetAcc := rfl
@[simp] theorem State.initial_ar : (State.initial c).ar = 0 := rfl
@[simp] theorem State.initial_dr : (State.initial c).dr = 0 := rfl
@[simp] theorem State.initial_ir : (State.initial c).ir = 0 := rfl
@[simp] theorem State.initial_irv : (State.initial c).irv = false := rfl
@[simp] theorem State.initial_pc : (State.initial c).pc = 0 := rfl
@[simp] theorem State.initial_phase : (State.initial c).phase = .idle := rfl
@[simp] theorem State.initial_run : (State.initial c).run = false := rfl
@[simp] theorem State.initial_late : (State.initial c).late = false := rfl
@[simp] theorem State.initial_imem : (State.initial c).imem = [] := rfl
@[simp] theorem State.initial_mem : (State.initial c).mem = [] := rfl
end initial

/-- The completion flag as a fact about PC and LEN. -/
theorem State.complete_iff (s : State) : s.complete = true ↔ s.pc = s.imem.length := by
  simp [State.complete, State.len]

/-- The completion flag is a function of PC and IMEM alone. -/
theorem State.complete_congr {s t : State} (hp : s.pc = t.pc) (hi : s.imem = t.imem) : s.complete = t.complete := by
  simp [State.complete, State.len, hp, hi]

/-- PHASE is one of two (R26). -/
theorem State.phase_cases (s : State) : s.phase = .idle ∨ s.phase = .decoded := by cases s.phase <;> simp

/-- PHASE_MODEL is one of two (R4). -/
theorem State.phaseModel_cases (s : State) : s.cfg.phaseModel = .split ∨ s.cfg.phaseModel = .fused := by
  cases s.cfg.phaseModel <;> simp

end Sys2Proof.Machine
end

