-- ==== Sys2Proof/Laws/Memory.lean ====
section
/-! SUPPORT. The laws of MEM: what a read gives after a write, that every operation keeps the canonical form, and that
memories in canonical form with equal cells are equal data. -/

namespace Sys2Proof.Machine

/-- An unlisted address reads as 0 (R28). -/
theorem Memory.unlisted_eq : Memory.unlisted = 0 := rfl

@[simp] theorem Memory.read_nil (a : Nat) : Memory.read [] a = 0 := rfl

theorem Memory.read_cons (c : Nat × Nat) (m : Memory) (a : Nat) :
    Memory.read (c :: m) a = if c.1 = a then c.2 else Memory.read m a := rfl

theorem Memory.wf_cons (c : Nat × Nat) (m : Memory) :
    Memory.wf (c :: m) = true ↔ c.2 ≠ 0 ∧ (∀ d ∈ m, c.1 < d.1) ∧ Memory.wf m = true := by
  rw [Memory.wf, Bool.and_eq_true, Bool.and_eq_true, decide_eq_true_iff, List.all_eq_true, and_assoc,
    Memory.unlisted_eq]
  simp only [decide_eq_true_eq]

/-- An address below every listed one reads as the unlisted value. -/
theorem Memory.read_of_lt {m : Memory} {a : Nat} (h : ∀ d ∈ m, a < d.1) : Memory.read m a = 0 := by
  induction m with
  | nil => rfl
  | cons c m ih =>
    have hc := h c (by simp)
    rw [Memory.read_cons, if_neg (by omega), ih fun d hd => h d (by simp [hd])]

/-- A read after a write: the value written at that address, the old value elsewhere (R53). -/
theorem Memory.read_write {m : Memory} (hm : Memory.wf m = true) (a b : Nat) (v : Nat) :
    Memory.read (Memory.write m a v) b = if b = a then v else Memory.read m b := by
  induction m with
  | nil =>
    simp only [Memory.write]
    split
    · rename_i hv; simp [hv, Memory.unlisted_eq]
    · simp [Memory.read_cons, eq_comm]
  | cons c m ih =>
    obtain ⟨_, hlt, hwf⟩ := (Memory.wf_cons c m).1 hm
    simp only [Memory.write]
    split
    · rename_i hac
      have hbelow : Memory.read (c :: m) a = 0 :=
        Memory.read_of_lt fun d hd => by
          rcases List.mem_cons.1 hd with rfl | hd
          · exact hac
          · exact hac.trans (hlt d hd)
      split
      · rename_i hv; split
        · rename_i hb; rw [hb, hbelow, hv, Memory.unlisted_eq]
        · rfl
      · rw [Memory.read_cons]
        by_cases hb : b = a
        · simp [hb]
        · simp [hb, Ne.symm hb]
    · split
      · rename_i _ hac
        have hbelow : Memory.read m a = 0 := Memory.read_of_lt fun d hd => hac ▸ hlt d hd
        split
        · rename_i hv
          by_cases hb : b = a
          · simp [hv, hb, hbelow, Memory.unlisted_eq]
          · simp [hb, Memory.read_cons, ← hac, Ne.symm hb]
        · by_cases hb : b = a
          · simp [hb, Memory.read_cons]
          · simp [hb, Memory.read_cons, ← hac, Ne.symm hb]
      · rename_i hne hac
        rw [Memory.read_cons, ih hwf, Memory.read_cons]
        by_cases hb : b = a
        · subst hb; simp [Ne.symm hac]
        · simp [hb]

/-- Every address a write lists was listed before or is the address written. -/
theorem Memory.mem_write {m : Memory} {a : Nat} {v : Nat} {d : Nat × Nat} (h : d ∈ Memory.write m a v) :
    d = (a, v) ∨ d ∈ m := by
  induction m with
  | nil =>
    simp only [Memory.write] at h
    split at h <;> simp_all
  | cons c m ih =>
    simp only [Memory.write] at h
    split at h
    · split at h
      · exact .inr h
      · rcases List.mem_cons.1 h with h | h
        · exact .inl h
        · exact .inr h
    · split at h
      · split at h
        · exact .inr (List.mem_cons_of_mem _ h)
        · rcases List.mem_cons.1 h with h | h
          · exact .inl h
          · exact .inr (List.mem_cons_of_mem _ h)
      · rcases List.mem_cons.1 h with h | h
        · exact .inr (h ▸ List.mem_cons_self)
        · exact (ih h).imp id (List.mem_cons_of_mem _)

/-- A write keeps the canonical form. -/
theorem Memory.wf_write {m : Memory} (hm : Memory.wf m = true) (a : Nat) (v : Nat) :
    Memory.wf (Memory.write m a v) = true := by
  induction m with
  | nil =>
    simp only [Memory.write]
    split
    · rfl
    · rename_i hv; exact (Memory.wf_cons _ _).2 ⟨hv, by simp, rfl⟩
  | cons c m ih =>
    obtain ⟨hc, hlt, hwf⟩ := (Memory.wf_cons c m).1 hm
    simp only [Memory.write]
    split
    · rename_i hac
      split
      · exact hm
      · rename_i hv
        refine (Memory.wf_cons _ _).2 ⟨hv, fun d hd => ?_, hm⟩
        rcases List.mem_cons.1 hd with rfl | hd
        · exact hac
        · exact hac.trans (hlt d hd)
    · split
      · rename_i _ hac
        split
        · exact hwf
        · rename_i hv
          exact (Memory.wf_cons _ _).2 ⟨hv, fun d hd => hac ▸ hlt d hd, hwf⟩
      · rename_i hna hac
        refine (Memory.wf_cons _ _).2 ⟨hc, fun d hd => ?_, ih hwf⟩
        rcases Memory.mem_write hd with rfl | hd
        · show c.1 < a; omega
        · exact hlt d hd

/-- Reset memory is in canonical form. -/
theorem Memory.wf_reset : Memory.wf State.reset.mem = true := rfl

/-- Two memories in canonical form whose cells are equal are the same list. -/
theorem Memory.ext_read {m n : Memory} (hm : Memory.wf m = true) (hn : Memory.wf n = true)
    (h : ∀ a, Memory.read m a = Memory.read n a) : m = n := by
  induction m generalizing n with
  | nil =>
    cases n with
    | nil => rfl
    | cons d n =>
      have := h d.1
      rw [Memory.read_cons, if_pos rfl, Memory.read_nil] at this
      exact absurd this.symm ((Memory.wf_cons d n).1 hn).1
  | cons c m ih =>
    obtain ⟨hc, hcm, hwm⟩ := (Memory.wf_cons c m).1 hm
    cases n with
    | nil =>
      have := h c.1
      rw [Memory.read_cons, if_pos rfl, Memory.read_nil] at this
      exact absurd this hc
    | cons d n =>
      obtain ⟨hd, hdn, hwn⟩ := (Memory.wf_cons d n).1 hn
      have hnotlt : ¬ c.1 < d.1 := fun hlt => hc <| by
        have h1 := h c.1
        rw [Memory.read_cons, if_pos rfl, Memory.read_of_lt] at h1
        · exact h1
        · intro e he
          rcases List.mem_cons.1 he with rfl | he
          · exact hlt
          · exact hlt.trans (hdn e he)
      have hnotgt : ¬ d.1 < c.1 := fun hlt => hd <| by
        have h1 := h d.1
        rw [Memory.read_cons d, if_pos rfl, Memory.read_of_lt] at h1
        · exact h1.symm
        · intro e he
          rcases List.mem_cons.1 he with rfl | he
          · exact hlt
          · exact hlt.trans (hcm e he)
      have hkey : c.1 = d.1 := by omega
      have hval : c.2 = d.2 := by
        have h1 := h c.1
        rwa [Memory.read_cons, if_pos rfl, Memory.read_cons, if_pos hkey.symm] at h1
      have htail : m = n := ih hwm hwn fun a => by
        have h1 := h a
        rw [Memory.read_cons, Memory.read_cons, ← hkey, ← hval] at h1
        by_cases ha : c.1 = a
        · rw [← ha, Memory.read_of_lt hcm, Memory.read_of_lt (hkey ▸ hdn)]
        · simpa [ha] using h1
      rw [htail, Prod.ext hkey hval]

end Sys2Proof.Machine
end

