-- ==== Sys2Proof/Laws/Ops.lean ====
section
/-! SUPPORT. For each shared operation of Machine/Ops.lean, once, everything it can do. -/

namespace Sys2Proof.Machine

theorem State.validAddr_iff (s : State) (a : Nat) : s.validAddr a = true ↔ a < s.cfg.size := by
  simp [State.validAddr]

/-- A word is masked into range (R6, R90). -/
theorem maskW_lt (w v : Nat) : maskW w v < 2 ^ w := Nat.mod_lt _ (Nat.two_pow_pos w)

/-- Masking leaves a value in range alone (R90). -/
theorem maskW_of_lt {w v : Nat} (h : v < 2 ^ w) : maskW w v = v := Nat.mod_eq_of_lt h

theorem orW_lt {w a b : Nat} (ha : a < 2 ^ w) (hb : b < 2 ^ w) : orW a b < 2 ^ w := Nat.or_lt_two_pow ha hb

theorem andW_lt {w a b : Nat} (hb : b < 2 ^ w) : andW a b < 2 ^ w := Nat.and_lt_two_pow a hb

theorem xorW_lt {w a b : Nat} (ha : a < 2 ^ w) (hb : b < 2 ^ w) : xorW a b < 2 ^ w := Nat.xor_lt_two_pow ha hb

theorem notW_lt (w a : Nat) : notW w a < 2 ^ w := by
  have := Nat.two_pow_pos w
  unfold notW wordMask; omega

theorem shlW_lt (w a n : Nat) : shlW w a n < 2 ^ w := maskW_lt w _

theorem shrW_lt {w a n : Nat} (ha : a < 2 ^ w) : shrW a n < 2 ^ w := (Nat.div_le_self a _).trans_lt ha

/-- A valid read answers the cell; an invalid one faults (R52). -/
theorem memRead_valid {s : State} {a : Nat} (h : a < s.cfg.size) : memRead s a = .ok (s.cell a) :=
  if_pos ((s.validAddr_iff a).2 h)

theorem memRead_invalid {s : State} {a : Nat} (h : s.cfg.size ≤ a) : memRead s a = .error (.outOfRange a none) :=
  if_neg fun hv => absurd ((s.validAddr_iff a).1 hv) (by omega)

/-- A valid write changes MEM alone; an invalid one faults (R53). -/
theorem memWrite_valid {s : State} {a v : Nat} (h : a < s.cfg.size) :
    memWrite s a v = .ok { s with mem := Memory.write s.mem a (maskW s.cfg.w v) } :=
  if_pos ((s.validAddr_iff a).2 h)

theorem memWrite_invalid {s : State} {a v : Nat} (h : s.cfg.size ≤ a) :
    memWrite s a v = .error (.outOfRange a none) :=
  if_neg fun hv => absurd ((s.validAddr_iff a).1 hv) (by omega)

/-- The cells of a memory that was written once. -/
theorem cell_write {s : State} (h : Memory.wf s.mem = true) (a b : Nat) (v : Nat) :
    State.cell { s with mem := Memory.write s.mem a v } b = if b = a then v else s.cell b :=
  Memory.read_write h a b v

@[simp] theorem andThen_next (t : State) (f : State → Result) : andThen (.next t) f = f t := rfl
@[simp] theorem andThen_fault (e : Fault) (f : State → Result) : andThen (.fault e) f = .fault e := rfl
@[simp] theorem andThen_refused (r : Refusal) (f : State → Result) : andThen (.refused r) f = .refused r := rfl

/-- Two operations in a row answer a state only if both do. -/
theorem andThen_eq_next {o : Result} {f : State → Result} {u : State} :
    andThen o f = .next u ↔ ∃ t, o = .next t ∧ f t = .next u := by
  cases o <;> simp

/-- The state after a fetch/decode phase that does not fault (R111, line 4). -/
def decodedState (i : Instr) (s : State) : State :=
  { s with
    ir := encode i, irv := true, ar := BitVec.ofNat 11 (effectiveAddr i s),
    dr := s.cell (effectiveAddr i s), phase := .decoded }

/-- The fetch/decode phase at a valid address (R111). -/
theorem fetchDecode_valid {i : Instr} {s : State} (h : effectiveAddr i s < s.cfg.size) :
    fetchDecode i s = .next (decodedState i s) := by
  simp only [fetchDecode, (s.validAddr_iff _).2 h, if_true, memRead_valid h]; rfl

/-- The fetch/decode phase at an address that is not valid (R111, line 3). -/
theorem fetchDecode_invalid {i : Instr} {s : State} (h : s.cfg.size ≤ effectiveAddr i s) :
    fetchDecode i s = .fault (.outOfRange (effectiveAddr i s) (some s.pc)) :=
  if_neg fun hv => absurd ((s.validAddr_iff _).1 hv) (by omega)

/-- Everything the fetch/decode phase can do (R111). -/
theorem fetchDecode_cases (i : Instr) (s : State) :
    (effectiveAddr i s < s.cfg.size ∧ fetchDecode i s = .next (decodedState i s)) ∨
    (s.cfg.size ≤ effectiveAddr i s ∧ fetchDecode i s = .fault (.outOfRange (effectiveAddr i s) (some s.pc))) := by
  rcases Nat.lt_or_ge (effectiveAddr i s) s.cfg.size with h | h
  · exact .inl ⟨h, fetchDecode_valid h⟩
  · exact .inr ⟨h, fetchDecode_invalid h⟩

/-- The execute phase answers a state where the operation does (R112). -/
theorem executePhase_eq_next {f : State → Result} {s u : State} :
    executePhase f s = .next u ↔ ∃ t, f s = .next t ∧ u = advance t := by
  rw [executePhase, andThen_eq_next]
  exact ⟨fun ⟨t, h, hu⟩ => ⟨t, h, by cases hu; rfl⟩, fun ⟨t, h, hu⟩ => ⟨t, h, by rw [hu]⟩⟩

/-- With PHASE = Decoded the execute phase is due (R114). -/
theorem runPhase_decoded {i : Instr} {f : State → Result} {s : State} (h : s.phase = .decoded) :
    runPhase i f s = executePhase f s := by rw [runPhase, h]

/-- With PHASE = Idle under the split model, the fetch/decode phase (R114). -/
theorem runPhase_split {i : Instr} {f : State → Result} {s : State} (h : s.phase = .idle)
    (hm : s.cfg.phaseModel = .split) : runPhase i f s = fetchDecode i s := by rw [runPhase, h, hm]

/-- With PHASE = Idle under the fused model, both (R115). -/
theorem runPhase_fused {i : Instr} {f : State → Result} {s : State} (h : s.phase = .idle)
    (hm : s.cfg.phaseModel = .fused) : runPhase i f s = andThen (fetchDecode i s) (executePhase f) := by
  rw [runPhase, h, hm]

end Sys2Proof.Machine
end

