-- ==== Sys2Proof/Laws/Exec.lean ====
section
/-! SUPPORT. What `exec` does, once for all sixteen constructors: the due phase of the instruction's operation. -/

namespace Sys2Proof.Machine

/-- The operation a constructor's meaning performs in its execute phase (R112, line 1). -/
def operateOf (o : Op) : State → Result :=
  match o with
  | .or => operateOr
  | .and => operateAnd
  | .xor => operateXor
  | .not => operateNot
  | .lshift => operateLshift
  | .rshift => operateRshift
  | .load => operateLoad
  | .store => operateStore

/-- Every arm of `exec` is the due phase of its operation. -/
theorem exec_eq_runPhase (i : Instr) (s : State) : exec i s = runPhase i (operateOf i.op) s := by cases i <;> rfl

theorem exec_decoded {i : Instr} {s : State} (h : s.phase = .decoded) :
    exec i s = executePhase (operateOf i.op) s := by rw [exec_eq_runPhase, runPhase_decoded h]

theorem exec_split {i : Instr} {s : State} (h : s.phase = .idle) (hm : s.cfg.phaseModel = .split) :
    exec i s = fetchDecode i s := by rw [exec_eq_runPhase, runPhase_split h hm]

theorem exec_fused {i : Instr} {s : State} (h : s.phase = .idle) (hm : s.cfg.phaseModel = .fused) :
    exec i s = andThen (fetchDecode i s) (executePhase (operateOf i.op)) := by
  rw [exec_eq_runPhase, runPhase_fused h hm]

/-- The unmasked value an operation gives ACC (R100 to R107); `store` leaves ACC as it is. -/
def rawAcc (o : Op) (s : State) : Nat :=
  match o with
  | .or => orW s.acc s.dr
  | .and => andW s.acc s.dr
  | .xor => xorW s.acc s.dr
  | .not => notW s.cfg.w s.acc
  | .lshift => shlW s.cfg.w s.acc 1
  | .rshift => shrW s.acc 1
  | .load => s.dr
  | .store => s.acc

/-- An operation other than `store` writes ACC, masked, and nothing else. -/
theorem operateOf_alu {o : Op} (ho : o ≠ .store) (s : State) :
    operateOf o s = .next (s.setAcc (rawAcc o s)) := by cases o <;> first | rfl | exact absurd rfl ho

/-- `store` at a valid AR writes that cell, masked, and DR (R107). -/
theorem operateOf_store {s : State} (h : s.ar.toNat < s.cfg.size) :
    operateOf .store s =
      .next { s with mem := Memory.write s.mem s.ar.toNat (maskW s.cfg.w s.acc), dr := s.acc } := by
  simp only [operateOf, operateStore, memWrite_valid h]

/-- The value an operation gives ACC is in range where its operands are (R20, R32). -/
theorem rawAcc_lt {o : Op} {s : State} (ha : s.acc < 2 ^ s.cfg.w) (hd : s.dr < 2 ^ s.cfg.w) :
    rawAcc o s < 2 ^ s.cfg.w := by
  cases o
  · exact orW_lt ha hd
  · exact andW_lt hd
  · exact xorW_lt ha hd
  · exact notW_lt _ _
  · exact shlW_lt _ _ _
  · exact shrW_lt ha
  · exact hd
  · exact ha

/-- The operations write ACC, DR and MEM and no other field, whatever the state. -/
theorem operateOf_frame {o : Op} {s t : State} (h : operateOf o s = .next t) :
    t.cfg = s.cfg ∧ t.ar = s.ar ∧ t.ir = s.ir ∧ t.irv = s.irv ∧ t.pc = s.pc ∧ t.phase = s.phase ∧ t.run = s.run ∧
      t.late = s.late ∧ t.imem = s.imem := by
  by_cases ho : o = .store
  · subst ho
    rcases Nat.lt_or_ge s.ar.toNat s.cfg.size with hv | hv
    · rw [operateOf_store hv] at h; cases h; simp
    · simp only [operateOf, operateStore, memWrite_invalid hv, raise] at h; cases h
  · rw [operateOf_alu ho] at h; cases h; simp

/-- An operation faults only where it is `store` and AR is not a valid address. -/
theorem operateOf_total {o : Op} {s : State} (h : s.ar.toNat < s.cfg.size) : ∃ t, operateOf o s = .next t := by
  by_cases ho : o = .store
  · subst ho; exact ⟨_, operateOf_store h⟩
  · exact ⟨_, operateOf_alu ho s⟩

/-- Everything the execute phase can change, and its advance (R112, R113). -/
theorem executePhase_frame {o : Op} {s u : State} (h : executePhase (operateOf o) s = .next u) :
    u.cfg = s.cfg ∧ u.ar = s.ar ∧ u.ir = s.ir ∧ u.irv = s.irv ∧ u.pc = s.pc + 1 ∧ u.phase = .idle ∧ u.run = s.run ∧
      u.late = s.late ∧ u.imem = s.imem := by
  obtain ⟨t, ht, rfl⟩ := executePhase_eq_next.1 h
  obtain ⟨h1, h2, h3, h4, h5, _, h7, h8, h9⟩ := operateOf_frame ht
  exact ⟨h1, h2, h3, h4, by simp [h5], rfl, h7, h8, h9⟩

/-- The execute phase of an operation other than `store`. -/
theorem executePhase_alu {o : Op} (ho : o ≠ .store) (s : State) :
    executePhase (operateOf o) s = .next (advance (s.setAcc (rawAcc o s))) := by
  rw [executePhase, operateOf_alu ho]; rfl

/-- The execute phase of `store` at a valid AR. -/
theorem executePhase_store {s : State} (h : s.ar.toNat < s.cfg.size) :
    executePhase (operateOf .store) s = .next (advance
      { s with mem := Memory.write s.mem s.ar.toNat (maskW s.cfg.w s.acc), dr := s.acc }) := by
  rw [executePhase, operateOf_store h]; rfl

/-- The ways `exec` can answer a state (R110 to R115): the execute phase alone, the fetch/decode phase alone, or under
the fused model the one after the other. -/
theorem exec_cases {i : Instr} {s u : State} (h : exec i s = .next u) :
    (s.phase = .decoded ∧ ∃ t, operateOf i.op s = .next t ∧ u = advance t) ∨
    (s.phase = .idle ∧ s.cfg.phaseModel = .split ∧ effectiveAddr i s < s.cfg.size ∧ u = decodedState i s) ∨
    (s.phase = .idle ∧ s.cfg.phaseModel = .fused ∧ effectiveAddr i s < s.cfg.size ∧
      ∃ t, operateOf i.op (decodedState i s) = .next t ∧ u = advance t) := by
  cases hp : s.phase
  · cases hm : s.cfg.phaseModel
    · rw [exec_split hp hm] at h
      rcases fetchDecode_cases i s with ⟨hv, e⟩ | ⟨hv, e⟩ <;> rw [e] at h <;> cases h
      exact .inr (.inl ⟨rfl, rfl, hv, rfl⟩)
    · rw [exec_fused hp hm] at h
      rcases fetchDecode_cases i s with ⟨hv, e⟩ | ⟨hv, e⟩ <;> rw [e] at h
      · exact .inr (.inr ⟨rfl, rfl, hv, executePhase_eq_next.1 h⟩)
      · cases h
  · rw [exec_decoded hp] at h
    exact .inl ⟨rfl, executePhase_eq_next.1 h⟩

/-- What no phase of any instruction writes: the parameters, RUN, LATE and the program. -/
theorem exec_frame {i : Instr} {s u : State} (h : exec i s = .next u) :
    u.cfg = s.cfg ∧ u.run = s.run ∧ u.late = s.late ∧ u.imem = s.imem := by
  rcases exec_cases h with ⟨_, t, ht, rfl⟩ | ⟨_, _, _, rfl⟩ | ⟨_, _, _, t, ht, rfl⟩
  · obtain ⟨h1, _, _, _, _, _, h7, h8, h9⟩ := operateOf_frame ht
    exact ⟨h1, h7, h8, h9⟩
  · exact ⟨rfl, rfl, rfl, rfl⟩
  · obtain ⟨h1, _, _, _, _, _, h7, h8, h9⟩ := operateOf_frame ht
    exact ⟨h1, h7, h8, h9⟩

end Sys2Proof.Machine
end

