-- ==== Sys2Proof/Laws/PerInstr.lean ====
section
/-! SUPPORT. The family RoundTrip: for each constructor, decoding the word of a well-formed instruction gives the
instruction back (30_encoding.md rule R77). -/

namespace Sys2Proof.Laws.RoundTrip

/-- A well-formed instruction is what its word decodes to. -/
def Statement (i : Instr) : Prop := i.wf = true → decode (encode i) = some i

theorem orRetained : Statement .orRetained := fun h => decode_encode_of_arg _ ((Instr.wf_iff _).1 h)
theorem orDirect (a : Nat) : Statement (.orDirect a) := fun h => decode_encode_of_arg _ ((Instr.wf_iff _).1 h)
theorem andRetained : Statement .andRetained := fun h => decode_encode_of_arg _ ((Instr.wf_iff _).1 h)
theorem andDirect (a : Nat) : Statement (.andDirect a) := fun h => decode_encode_of_arg _ ((Instr.wf_iff _).1 h)
theorem xorRetained : Statement .xorRetained := fun h => decode_encode_of_arg _ ((Instr.wf_iff _).1 h)
theorem xorDirect (a : Nat) : Statement (.xorDirect a) := fun h => decode_encode_of_arg _ ((Instr.wf_iff _).1 h)
theorem notRetained : Statement .notRetained := fun h => decode_encode_of_arg _ ((Instr.wf_iff _).1 h)
theorem notDirect (a : Nat) : Statement (.notDirect a) := fun h => decode_encode_of_arg _ ((Instr.wf_iff _).1 h)
theorem lshiftRetained : Statement .lshiftRetained := fun h => decode_encode_of_arg _ ((Instr.wf_iff _).1 h)
theorem lshiftDirect (a : Nat) : Statement (.lshiftDirect a) := fun h => decode_encode_of_arg _ ((Instr.wf_iff _).1 h)
theorem rshiftRetained : Statement .rshiftRetained := fun h => decode_encode_of_arg _ ((Instr.wf_iff _).1 h)
theorem rshiftDirect (a : Nat) : Statement (.rshiftDirect a) := fun h => decode_encode_of_arg _ ((Instr.wf_iff _).1 h)
theorem loadRetained : Statement .loadRetained := fun h => decode_encode_of_arg _ ((Instr.wf_iff _).1 h)
theorem loadDirect (a : Nat) : Statement (.loadDirect a) := fun h => decode_encode_of_arg _ ((Instr.wf_iff _).1 h)
theorem storeRetained : Statement .storeRetained := fun h => decode_encode_of_arg _ ((Instr.wf_iff _).1 h)
theorem storeDirect (a : Nat) : Statement (.storeDirect a) := fun h => decode_encode_of_arg _ ((Instr.wf_iff _).1 h)

end Sys2Proof.Laws.RoundTrip
end

