-- ==== Sys2Proof/Laws/Step.lean ====
section
/-! SUPPORT. Everything a `step`, an automatic step, a late step and a host operation can do: one lemma for each, which
later proofs cite instead of unfolding it. -/

namespace Sys2Proof.Machine

/-- The ways a `step` can go (R111, R112, R114). -/
inductive StepCase (s : State) : Result → Prop where
  /-- The program is complete: nothing happens. -/
  | complete (h : s.pc = s.imem.length) : StepCase s (.next s)
  /-- PHASE = Idle and the fetched word is legal. -/
  | fetched (hc : s.pc ≠ s.imem.length) (hp : s.phase = .idle) (w : InstrWord) (i : Instr)
      (hw : s.imem[s.pc]? = some w) (hi : decode w = some i) : StepCase s (exec i s)
  /-- PHASE = Idle and the fetched word is reserved. -/
  | reserved (hc : s.pc ≠ s.imem.length) (hp : s.phase = .idle) (w : InstrWord) (hw : s.imem[s.pc]? = some w)
      (hi : decode w = none) : StepCase s (.fault (.unknownOperation w s.pc))
  /-- PHASE = Idle and PC is beyond LEN; no run gets here. -/
  | outside (hc : s.pc ≠ s.imem.length) (hp : s.phase = .idle) (hw : s.imem[s.pc]? = none) :
      StepCase s (.refused .fetchOutsideProgram)
  /-- PHASE = Decoded and IR holds an instruction. -/
  | pending (hc : s.pc ≠ s.imem.length) (hp : s.phase = .decoded) (hv : s.irv = true) (i : Instr)
      (hi : decode s.ir = some i) : StepCase s (exec i s)
  /-- PHASE = Decoded and IR holds no decoded instruction; no run gets here. -/
  | invalid (hc : s.pc ≠ s.imem.length) (hp : s.phase = .decoded) (hv : s.pending = none) :
      StepCase s (.fault .invalidState)

/-- A `step` goes one of these ways. -/
theorem step_cases (s : State) : StepCase s (step s) := by
  unfold step sequencerStep
  split
  · rename_i h; exact .complete (s.complete_iff.1 h)
  · rename_i h
    have hc : s.pc ≠ s.imem.length := fun he => h (s.complete_iff.2 he)
    split
    · rename_i hp
      unfold fetchAndRun
      split
      · rename_i hw; exact .outside hc hp hw
      · rename_i w hw
        split
        · rename_i i hi; exact .fetched hc hp w i hw hi
        · rename_i hi; exact .reserved hc hp w hw hi
    · rename_i hp
      unfold runPending
      split
      · rename_i i hi
        unfold State.pending at hi
        split at hi
        · rename_i hv; exact .pending hc hp hv i hi
        · cases hi
      · rename_i hn; exact .invalid hc hp hn

/-- What no `step` writes: the parameters, RUN, LATE and the program. -/
theorem step_frame {s t : State} (h : step s = .next t) :
    t.cfg = s.cfg ∧ t.run = s.run ∧ t.late = s.late ∧ t.imem = s.imem := by
  have hc := step_cases s
  rw [h] at hc
  generalize hr : Host.Outcome.next t = r at hc
  cases hc with
  | complete h' => cases hr; exact ⟨rfl, rfl, rfl, rfl⟩
  | fetched hc hp w i hw hi => exact exec_frame hr.symm
  | pending hc hp hv i hi => exact exec_frame hr.symm
  | reserved | outside | invalid => cases hr

/-- A legal word at PC, with PHASE = Idle, is run (R114). -/
theorem step_fetched {s : State} {w : InstrWord} {i : Instr} (hp : s.phase = .idle) (hw : s.imem[s.pc]? = some w)
    (hi : decode w = some i) : step s = exec i s := by
  have hc : ¬ s.complete = true := fun h => by
    rw [s.complete_iff.1 h, List.getElem?_eq_none (Nat.le_refl _)] at hw; cases hw
  rw [step, sequencerStep, if_neg hc, hp]; simp only [fetchAndRun, hw, hi]

/-- A reserved word at PC, with PHASE = Idle, is UnknownOperation (R156). -/
theorem step_reserved {s : State} {w : InstrWord} (hp : s.phase = .idle) (hw : s.imem[s.pc]? = some w)
    (hi : decode w = none) : step s = .fault (.unknownOperation w s.pc) := by
  have hc : ¬ s.complete = true := fun h => by
    rw [s.complete_iff.1 h, List.getElem?_eq_none (Nat.le_refl _)] at hw; cases hw
  rw [step, sequencerStep, if_neg hc, hp]; simp only [fetchAndRun, hw, hi, raise]

/-- The decoded instruction is run with PHASE = Decoded (R114). -/
theorem step_pending {s : State} {i : Instr} (hc : s.pc ≠ s.imem.length) (hp : s.phase = .decoded)
    (hv : s.irv = true) (hi : decode s.ir = some i) : step s = exec i s := by
  have hc' : ¬ s.complete = true := fun h => hc (s.complete_iff.1 h)
  rw [step, sequencerStep, if_neg hc', hp]; simp only [runPending, State.pending, hv, if_true, hi]

/-- On a complete program `step` does nothing (R114). -/
theorem step_complete {s : State} (h : s.pc = s.imem.length) : step s = .next s := by
  rw [step, sequencerStep, if_pos (s.complete_iff.2 h)]

/-- The automatic step without RUN. -/
theorem autoStep_idle {s : State} (h : s.run = false) : autoStep s = ⟨s, .done⟩ := by simp [autoStep, h]

/-- The automatic step on a complete program (R118). -/
theorem autoStep_complete {s : State} (h : s.run = true) (hc : s.complete = true) :
    autoStep s = ⟨s.endRun, .done⟩ := by simp [autoStep, h, hc]

/-- The automatic step whose `step` answers a state (R118). -/
theorem autoStep_next {s t : State} (h : s.run = true) (hc : s.complete = false) (ht : step s = .next t) :
    autoStep s = ⟨if t.complete then t.endRun else t, .done⟩ := by
  rw [step] at ht; simp [autoStep, h, hc, ht, react]

/-- The automatic step whose `step` faults (R118, R157). -/
theorem autoStep_fault {s : State} {f : Fault} (h : s.run = true) (hc : s.complete = false)
    (ht : step s = .fault f) : autoStep s = ⟨s.endRun, .fault f⟩ := by
  rw [step] at ht; simp [autoStep, h, hc, ht, react]

/-- The automatic step whose `step` is refused. -/
theorem autoStep_refused {s : State} {r : Refusal} (h : s.run = true) (hc : s.complete = false)
    (ht : step s = .refused r) : autoStep s = ⟨s.endRun, .refused r⟩ := by
  rw [step] at ht; simp [autoStep, h, hc, ht, react]

/-- The late step that is not due (R120). -/
theorem lateStep_idle {s : State} (h : s.late = false ∨ s.complete = true) : lateStep s = ⟨s, .done⟩ := by
  rcases h with h | h <;> simp [lateStep, h]

/-- The late step that is due (R120). -/
theorem lateStep_due {s : State} (h : s.late = true) (hc : s.complete = false) :
    lateStep s = ⟨{ (react s (step s)).state with late := false }, (react s (step s)).report⟩ := by
  simp [lateStep, h, hc, step]

/-- A host write at an address that is not valid (R130). -/
theorem hostWrite_invalid {s : State} {v a : Nat} (h : s.cfg.size ≤ a) :
    hostWrite v a s = .fault (.outOfRange a none) := by simp only [hostWrite, memWrite_invalid h, raise]

/-- A host write at a valid address (R130). -/
theorem hostWrite_valid {s : State} {v a : Nat} (hm : Memory.wf s.mem = true) (har : s.ar.toNat < s.cfg.size)
    (h : a < s.cfg.size) :
    hostWrite v a s = .next
      { s with
        mem := Memory.write s.mem a (maskW s.cfg.w v),
        dr := if s.ar.toNat = a then maskW s.cfg.w v else s.cell s.ar.toNat } := by
  have hr := memRead_valid (s := { s with mem := Memory.write s.mem a (maskW s.cfg.w v) }) har
  rw [cell_write hm] at hr
  simp only [hostWrite, memWrite_valid h, hr]

/-- The ways an `append` can go (R132). -/
theorem hostAppend_cases (w : InstrWord) (s : State) :
    (s.imemFull = true ∧ hostAppend w s = .refused .imemFull) ∨
    (s.imemFull = false ∧ hostAppend w s = .next { s with imem := s.imem ++ [w] }) := by
  unfold hostAppend; cases s.imemFull <;> simp

/-- The ways an `insert` can go (R133). -/
theorem hostInsert_cases (w : InstrWord) (p : Nat) (s : State) :
    (s.imem.length < p ∧ hostInsert w p s = .fault (.outOfRange p none)) ∨
    (p ≤ s.imem.length ∧ s.imemFull = true ∧ hostInsert w p s = .refused .imemFull) ∨
    (p ≤ s.imem.length ∧ s.imemFull = false ∧
      hostInsert w p s = .next { s with imem := s.imem.take p ++ w :: s.imem.drop p }) := by
  unfold hostInsert State.len
  rcases Nat.lt_or_ge s.imem.length p with h | h
  · exact .inl ⟨h, by simp [h, raise]⟩
  · have : ¬ s.imem.length < p := by omega
    cases hf : s.imemFull
    · exact .inr (.inr ⟨h, rfl, by simp [this]⟩)
    · exact .inr (.inl ⟨h, rfl, by simp [this]⟩)

/-- The store is full exactly at its capacity or beyond (R132). -/
theorem State.imemFull_eq_false {s : State} :
    s.imemFull = false ↔ ∀ n, s.cfg.imemCap = some n → s.imem.length < n := by
  unfold State.imemFull State.len
  cases s.cfg.imemCap <;> simp

/-- What `react` shows of an operation that faults or is refused is the unchanged state (R157). -/
@[simp] theorem react_next (s t : State) : react s (.next t) = ⟨t, .done⟩ := rfl
@[simp] theorem react_fault (s : State) (f : Fault) : react s (.fault f) = ⟨s, .fault f⟩ := rfl
@[simp] theorem react_refused (s : State) (r : Refusal) : react s (.refused r) = ⟨s, .refused r⟩ := rfl

end Sys2Proof.Machine
end

