-- ==== Sys2Proof/Laws/Run.lean ====
section
/-! SUPPORT. Runs of several steps: `Host.Core.run` one step at a time, and sequences of operations. -/

namespace Sys2Proof.Machine

/-- A run whose first step answers a state goes on from it; for any machine of the host's interface. -/
theorem run_succ_of_next (M : Host.Core) (k : Nat) (s t : M.State) (h : M.step s = .next t) :
    M.run (k + 1) s = M.run k t := by rw [Host.Core.run, h]

/-- The first step of a run of the core. -/
theorem core_run_succ {k : Nat} {s t : State} (h : step s = .next t) :
    Host.Core.run Sys2Proof.core (k + 1) s = Host.Core.run Sys2Proof.core k t :=
  run_succ_of_next Sys2Proof.core k s t h

/-- A run of the core on a complete program goes nowhere (R114). -/
theorem core_run_complete {s : State} (h : s.pc = s.imem.length) (k : Nat) :
    Host.Core.run Sys2Proof.core k s = .next s := by
  induction k with
  | zero => rfl
  | succ k ih => rw [core_run_succ (step_complete h)]; exact ih

@[simp] theorem performAll_nil (s : State) : performAll [] s = s := rfl

@[simp] theorem performAll_cons (e : Event) (es : List Event) (s : State) :
    performAll (e :: es) s = performAll es (perform e s).state := rfl

/-- A sequence of operations in two parts. -/
theorem performAll_append (es fs : List Event) (s : State) :
    performAll (es ++ fs) s = performAll fs (performAll es s) := by
  induction es generalizing s with
  | nil => rfl
  | cons e es ih => exact ih _

end Sys2Proof.Machine
end

