-- ==== Sys2Proof/Tests/Slice0.lean ====
section
/-! SUPPORT. Tests of one operation each, with results from 95_test_vectors.md or worked by hand from the rules, and a
witness for the hypotheses of every obligation that has some. -/

namespace Sys2Proof.Tests

open Sys2Proof Sys2Proof.Machine

/- ## Well-formedness: an argument of 2048 has no encoding (R79) -/

theorem test_wf_orDirect_refuses_2048 : (Instr.orDirect 2048).wf = false := by decide
theorem test_wf_andDirect_refuses_2048 : (Instr.andDirect 2048).wf = false := by decide
theorem test_wf_xorDirect_refuses_2048 : (Instr.xorDirect 2048).wf = false := by decide
theorem test_wf_notDirect_refuses_2048 : (Instr.notDirect 2048).wf = false := by decide
theorem test_wf_lshiftDirect_refuses_2048 : (Instr.lshiftDirect 2048).wf = false := by decide
theorem test_wf_rshiftDirect_refuses_2048 : (Instr.rshiftDirect 2048).wf = false := by decide
theorem test_wf_loadDirect_refuses_2048 : (Instr.loadDirect 2048).wf = false := by decide
theorem test_wf_storeDirect_refuses_2048 : (Instr.storeDirect 2048).wf = false := by decide
theorem test_wf_admits_2047 : (Instr.orDirect 2047).wf = true ∧ Instr.orRetained.wf = true := by decide
theorem test_configWf_refuses :
    Config.wf { Config.reference with w := 0 } = false ∧ Config.wf { Config.reference with size := 0 } = false ∧
    Config.wf { Config.reference with size := 2049 } = false ∧
    Config.wf { Config.reference with resetAcc := 256 } = false := by decide
theorem test_configWf_admits :
    Config.wf { Config.reference with w := 1 } = true ∧ Config.wf { Config.reference with size := 1 } = true ∧
    Config.wf { Config.reference with size := 2048 } = true ∧
    Config.wf { Config.reference with resetAcc := 255 } = true := by decide

/- ## Decoding: each constructor from a word written out as OPC, P, A (R72, R76) -/

theorem test_decode_orRetained : decode 0b0000000000000000 = some .orRetained := by decide
theorem test_decode_orDirect : decode 0b0000100000000011 = some (.orDirect 3) := by decide
theorem test_decode_andRetained : decode 0b0001000000000000 = some .andRetained := by decide
theorem test_decode_andDirect : decode 0b0001100000000001 = some (.andDirect 1) := by decide
theorem test_decode_xorRetained : decode 0b0010000000000000 = some .xorRetained := by decide
theorem test_decode_xorDirect : decode 0b0010111111111111 = some (.xorDirect 2047) := by decide
theorem test_decode_notRetained : decode 0b0011000000000000 = some .notRetained := by decide
theorem test_decode_notDirect : decode 0b0011100000001000 = some (.notDirect 8) := by decide
theorem test_decode_lshiftRetained : decode 0b0100000000000000 = some .lshiftRetained := by decide
theorem test_decode_lshiftDirect : decode 0b0100100000000101 = some (.lshiftDirect 5) := by decide
theorem test_decode_rshiftRetained : decode 0b0101000000000000 = some .rshiftRetained := by decide
theorem test_decode_rshiftDirect : decode 0b0101100000010000 = some (.rshiftDirect 16) := by decide
theorem test_decode_loadRetained : decode 0b0110000000000000 = some .loadRetained := by decide
theorem test_decode_loadDirect : decode 0b0110100000000010 = some (.loadDirect 2) := by decide
theorem test_decode_storeRetained : decode 0b0111000000000000 = some .storeRetained := by decide
theorem test_decode_storeDirect : decode 0b0111110000000000 = some (.storeDirect 1024) := by decide

/-- 95 section 2.6: the reserved words of its table. -/
theorem test_decode_reserved :
    decodeWord 0x0001 = .error .strayArgument ∧ decodeWord 0x3001 = .error .strayArgument ∧
    decodeWord 0x77FF = .error .strayArgument ∧ decodeWord 0x8000 = .error .opcode ∧
    decodeWord 0xF800 = .error .opcode ∧ decodeWord 0xFFFF = .error .opcode := by
  refine ⟨rfl, rfl, rfl, rfl, rfl, rfl⟩

/-- 95 section 2.6: the words of its assembly column. -/
theorem test_encode :
    encode (.orDirect 0) = 0x0800 ∧ encode (.andDirect 2047) = 0x1FFF ∧ encode (.xorDirect 1) = 0x2801 ∧
    encode .notRetained = 0x3000 ∧ encode (.lshiftDirect 5) = 0x4805 ∧ encode .rshiftRetained = 0x5000 ∧
    encode (.loadDirect 16) = 0x6810 ∧ encode .storeRetained = 0x7000 ∧ encode (.storeDirect 15) = 0x780F := by
  decide

theorem test_decodeTableWord :
    decodeTableWord 16 0x7802 = some (.storeDirect 2) ∧ decodeTableWord 16 0x8000 = none := by decide

/-- R80, R81: text to words, words to text; an unknown name, an argument that does not fit, a missing comma and an
empty program are refused. -/
theorem test_assemble :
    assemble "load(0), xor(1), store(2047)".toList = some [0x6800, 0x2801, 0x7FFF] ∧
    assemble "load(2048)".toList = none ∧ assemble "write(1)".toList = none ∧
    assemble "not() not()".toList = none ∧ assemble "".toList = none := by decide
theorem test_disassemble :
    disassemble 0x6802 = some "load(2)".toList ∧ disassemble 0x4000 = some "lshift()".toList ∧
    disassemble 0x7FFF = some "store(2047)".toList ∧ disassemble 0x0001 = none := by decide

/- ## Word primitives (95 section 2.1) -/

theorem test_mask : maskW 8 256 = 0 ∧ maskW 8 263 = 7 ∧ maskW 4 0xA7 = 7 ∧ maskW 1 2 = 0 := by decide
theorem test_bitwise : andW 240 60 = 48 ∧ orW 240 60 = 252 ∧ xorW 240 60 = 204 ∧ notW 8 6 = 249 ∧ notW 4 6 = 9 := by
  decide
theorem test_shl : shlW 8 129 1 = 2 ∧ shlW 1 1 1 = 0 ∧ shlW 8 0b00110011 3 = 152 ∧ shlW 8 255 9 = 0 ∧ shlW 8 77 0 = 77 := by
  decide
theorem test_shr : shrW 129 1 = 64 ∧ shrW 1 1 = 0 ∧ shrW 0b11001101 3 = 25 ∧ shrW 255 8 = 0 ∧ shrW 77 0 = 77 := by decide
theorem test_render : renderW 8 6 = "00000110".toList ∧ renderW 4 9 = "1001".toList := by decide

/- ## Small states -/

/-- Cells 0 and 3 as in 95 section 2.2. -/
def cells : Memory := [(0, 240), (3, 60)]

/-- PHASE = Idle at index `pc` of `imem`, ACC 240 and AR 0. -/
def idleAt (m : PhaseModel) (imem : List InstrWord) (pc : Nat) : State :=
  { State.reset with
    cfg := { Config.reference with phaseModel := m }, acc := 240, dr := 240, mem := cells, imem := imem, pc := pc }

/-- PHASE = Decoded with the word `ir` in IR and AR 3, at index `pc` of `imem`. -/
def decodedAt (ir : InstrWord) (imem : List InstrWord) (pc : Nat) : State :=
  { idleAt .split imem pc with phase := .decoded, ir := ir, irv := true, ar := 3, dr := 60 }

/-- What `exec` does, as data. -/
def run (i : Instr) (s : State) : Reaction := react s (exec i s)

/- ## The execute phase (95 sections 2.2 to 2.4) -/

theorem test_orDirect_executes :
    (run (.orDirect 3) (decodedAt 0x0803 [0] 0)).state.acc = 252 := by decide
theorem test_orRetained_executes :
    (run .orRetained (decodedAt 0x0000 [0] 0)).state =
      { decodedAt 0x0000 [0] 0 with acc := 252, pc := 1, phase := .idle } := by decide
theorem test_andDirect_executes :
    (run (.andDirect 3) (decodedAt 0x1803 [0] 0)).state.acc = 48 := by decide
theorem test_andRetained_executes :
    (run .andRetained (decodedAt 0x1000 [0] 0)).state =
      { decodedAt 0x1000 [0] 0 with acc := 48, pc := 1, phase := .idle } := by decide
theorem test_xorDirect_executes :
    (run (.xorDirect 3) (decodedAt 0x2803 [0] 0)).state.acc = 204 := by decide
theorem test_xorRetained_executes :
    (run .xorRetained (decodedAt 0x2000 [0] 0)).state =
      { decodedAt 0x2000 [0] 0 with acc := 204, pc := 1, phase := .idle } := by decide
theorem test_notDirect_executes :
    (run (.notDirect 3) (decodedAt 0x3803 [0] 0)).state.acc = 15 := by decide
theorem test_notRetained_executes :
    (run .notRetained (decodedAt 0x3000 [0] 0)).state =
      { decodedAt 0x3000 [0] 0 with acc := 15, pc := 1, phase := .idle } := by decide
theorem test_lshiftDirect_executes :
    (run (.lshiftDirect 3) (decodedAt 0x4803 [0] 0)).state.acc = 224 := by decide
theorem test_lshiftRetained_executes :
    (run .lshiftRetained (decodedAt 0x4000 [0] 0)).state =
      { decodedAt 0x4000 [0] 0 with acc := 224, pc := 1, phase := .idle } := by decide
theorem test_rshiftDirect_executes :
    (run (.rshiftDirect 3) (decodedAt 0x5803 [0] 0)).state.acc = 120 := by decide
theorem test_rshiftRetained_executes :
    (run .rshiftRetained (decodedAt 0x5000 [0] 0)).state =
      { decodedAt 0x5000 [0] 0 with acc := 120, pc := 1, phase := .idle } := by decide
theorem test_loadDirect_executes :
    (run (.loadDirect 3) (decodedAt 0x6803 [0] 0)).state.acc = 60 := by decide
theorem test_loadRetained_executes :
    (run .loadRetained (decodedAt 0x6000 [0] 0)).state =
      { decodedAt 0x6000 [0] 0 with acc := 60, pc := 1, phase := .idle } := by decide
theorem test_storeDirect_executes :
    (run (.storeDirect 3) (decodedAt 0x7803 [0] 0)).state =
      { decodedAt 0x7803 [0] 0 with mem := [(0, 240), (3, 240)], dr := 240, pc := 1, phase := .idle } := by decide
theorem test_storeRetained_of_zero_unlists_the_cell :
    (run .storeRetained { decodedAt 0x7000 [0] 0 with acc := 0 }).state.mem = [(0, 240)] := by decide

/-- The shifts at other widths (95 section 2.3). -/
theorem test_lshift_narrow :
    (run .lshiftRetained { decodedAt 0x4000 [0] 0 with cfg := { Config.reference with w := 4 }, acc := 9 }).state.acc = 2 ∧
    (run .lshiftRetained { decodedAt 0x4000 [0] 0 with cfg := { Config.reference with w := 1 }, acc := 1 }).state.acc = 0 := by
  decide

/- ## Fetch and decode -/

theorem test_fetch_writes_ar_dr_ir :
    perform .step (idleAt .split [0x0803] 0) =
      ⟨{ idleAt .split [0x0803] 0 with ir := 0x0803, irv := true, ar := 3, dr := 60, phase := .decoded }, .done⟩ := by
  decide
theorem test_fetch_without_argument_keeps_ar :
    perform .step (idleAt .split [0x7000] 0) =
      ⟨{ idleAt .split [0x7000] 0 with ir := 0x7000, irv := true, phase := .decoded }, .done⟩ := by decide
theorem test_fetch_at_the_top_of_memory :
    (perform .step (idleAt .split [0x680F] 0)).state.ar = 15 ∧
    perform .step (idleAt .split [0x6810] 0) = ⟨idleAt .split [0x6810] 0, .fault (.outOfRange 16 (some 0))⟩ ∧
    perform .step (idleAt .split [0x7FFF] 0) = ⟨idleAt .split [0x7FFF] 0, .fault (.outOfRange 2047 (some 0))⟩ := by
  decide
theorem test_fetch_of_a_reserved_word :
    perform .step (idleAt .split [0x0000, 0x3001] 1) =
      ⟨idleAt .split [0x0000, 0x3001] 1, .fault (.unknownOperation 0x3001 1)⟩ := by decide
theorem test_fused_step :
    (perform .step (idleAt .fused [0x0803] 0)).state =
      { idleAt .fused [0x0803] 0 with ir := 0x0803, irv := true, ar := 3, dr := 60, acc := 252, pc := 1 } := by decide
theorem test_step_on_a_complete_program :
    perform .step (idleAt .split [0x0000] 1) = ⟨idleAt .split [0x0000] 1, .done⟩ := by decide
theorem test_withFetchWord :
    (perform .step (State.reset.withFetchWord 16 0x7802)).state.ir = 0x7802 ∧
    (perform .step (State.reset.withFetchWord 16 0x7802)).report = .done := by decide

/- ## Host operations (95 sections 2.5, 2.7, 2.8) -/

theorem test_write_masks_and_refreshes :
    (perform (.write 263 0) State.reset).state = { State.reset with mem := [(0, 7)], dr := 7 } ∧
    (perform (.write 511 3) State.reset).state = { State.reset with mem := [(3, 255)] } ∧
    perform (.write 1 16) State.reset = ⟨State.reset, .fault (.outOfRange 16 none)⟩ ∧
    (perform (.write 1 15) State.reset).report = .done := by decide
theorem test_insert :
    perform (.insert 0x3000 4) (idleAt .split [0x6800, 0x3000, 0x7801] 0) =
      ⟨idleAt .split [0x6800, 0x3000, 0x7801] 0, .fault (.outOfRange 4 none)⟩ ∧
    (perform (.insert 0x5000 3) (idleAt .split [0x6800, 0x3000, 0x7801] 0)).state.imem =
      [0x6800, 0x3000, 0x7801, 0x5000] ∧
    (perform (.insert 0x4000 0) (idleAt .split [0x6800, 0x3000] 0)).state.imem = [0x4000, 0x6800, 0x3000] := by decide
theorem test_append_to_a_full_store :
    perform (.append 0) { State.reset with cfg := { Config.reference with imemCap := some 0 } } =
      ⟨{ State.reset with cfg := { Config.reference with imemCap := some 0 } }, .refused .imemFull⟩ := by decide
theorem test_play_and_stop :
    (perform .play (idleAt .split [0] 0)).state.run = true ∧ (perform .play (idleAt .split [0] 1)).state.run = false ∧
    (perform (.stop false) { idleAt .split [0] 0 with run := true }).state = idleAt .split [0] 0 := by decide
theorem test_auto_clears_run_at_the_end :
    (perform .auto { decodedAt 0x3000 [0x3000] 0 with run := true }).state.run = false ∧
    (perform .auto { decodedAt 0x3000 [0x3000] 0 with run := true }).state.pc = 1 := by decide
theorem test_auto_clears_run_on_a_fault :
    perform .auto { idleAt .split [0xFFFF] 0 with run := true } =
      ⟨idleAt .split [0xFFFF] 0, .fault (.unknownOperation 0xFFFF 0)⟩ := by decide
theorem test_late_step :
    (perform .lateStep { decodedAt 0x3000 [0x3000] 0 with late := true }).state =
      { decodedAt 0x3000 [0x3000] 0 with acc := 15, pc := 1, phase := .idle } ∧
    perform .lateStep (decodedAt 0x3000 [0x3000] 0) = ⟨decodedAt 0x3000 [0x3000] 0, .done⟩ := by decide
theorem test_snapshot :
    (snapshot (decodedAt 0x0803 [0x0803] 0)).instructionRegister = some (.or, [3]) ∧
    (snapshot (decodedAt 0x0803 [0x0803] 0)).memory = [240, 0, 0, 60] ++ List.replicate 12 0 ∧
    (snapshot State.reset).instructionRegister = none := by decide
theorem test_reset : State.reset.acc = 0 ∧ State.reset.pc = 0 ∧ State.reset.mem = [] ∧ State.reset.irv = false := by
  decide

/- ## Witnesses -/

theorem cells_read (a : Nat) : Memory.read cells a = if a = 0 then 240 else if a = 3 then 60 else 0 := by
  simp only [cells, Memory.read, Memory.unlisted, eq_comm (a := a)]

/-- The states of PHASE = Idle above satisfy the invariants, with RUN set or not. -/
theorem idleAt_inv (m : PhaseModel) (imem : List InstrWord) (pc : Nat) (h : pc ≤ imem.length) (r : Bool) :
    ({ idleAt m imem pc with run := r } : State).Inv where
  cfgWf := rfl
  accRange := show (240 : Nat) < 2 ^ 8 by decide
  arValid := show (0 : Nat) < 16 by decide
  drMirror := rfl
  memRange := fun a => by
    change Memory.read cells a < 2 ^ 8
    rw [cells_read]; split <;> [decide; (split <;> decide)]
  memBounded := fun a ha => by
    have : 16 ≤ a := ha
    change Memory.read cells a = 0
    rw [cells_read, if_neg (by omega), if_neg (by omega)]
  memWf := rfl
  pcRange := h
  decodedPending := fun h => by cases h
  irLegal := fun h => by cases h
  irBlank := fun _ => rfl
  fusedIdle := fun _ => rfl
  lateStopped := fun h => by cases h
  capacity := fun n h => by cases h

/-- So do those of PHASE = Decoded, where IR holds a legal word. -/
theorem decodedAt_inv (ir : InstrWord) (imem : List InstrWord) (pc : Nat) (h : pc < imem.length)
    (hi : (decode ir).isSome = true) (r : Bool) : ({ decodedAt ir imem pc with run := r } : State).Inv where
  cfgWf := rfl
  accRange := show (240 : Nat) < 2 ^ 8 by decide
  arValid := show (3 : Nat) < 16 by decide
  drMirror := rfl
  memRange := (idleAt_inv .split imem pc (Nat.le_of_lt h) r).memRange
  memBounded := (idleAt_inv .split imem pc (Nat.le_of_lt h) r).memBounded
  memWf := rfl
  pcRange := Nat.le_of_lt h
  decodedPending := fun _ => ⟨h, rfl⟩
  irLegal := fun _ => hi
  irBlank := fun h => by cases h
  fusedIdle := fun h => by cases h
  lateStopped := fun h => by cases h
  capacity := fun n h => by cases h

/-- DecodeInvertsEncode, EncodeInvertsDecode, LegalWordsAreTheTable, AssemblyRoundTrip: the largest argument. -/
theorem witness_encoding :
    (Instr.storeDirect 2047).wf = true ∧ decode 0x7FFF = some (.storeDirect 2047) ∧
    (∃ r ∈ patternRows, r.matches 0x7FFF = true) ∧ disassemble 0x8000 = none := by
  refine ⟨rfl, by decide, ⟨⟨.store, true, 0x7800, 0xF800⟩, by decide, by decide⟩, by decide⟩

/-- ReservedWordsFaultAtDecode: a reserved word of each set due for fetching, and a store that is not full, with the
position at LEN. -/
theorem witness_ReservedWordsFaultAtDecode :
    (idleAt .split [0x8000] 0).phase = .idle ∧ (idleAt .split [0x8000] 0).imem[0]? = some 0x8000 ∧
    decode 0x8000 = none ∧ decode 0x0001 = none ∧ (idleAt .split [0x8000] 0).imemFull = false ∧
    1 ≤ (idleAt .split [0x8000] 0).len := by decide

/-- BitwisePrimitives, ShiftPrimitives, WordLaws, RenderingHasWidthDigits: the widths 1 and 8, the distance W, the
last digit. -/
theorem witness_primitives : 1 < 2 ^ 1 ∧ 255 < 2 ^ 8 ∧ 0 < 2 ^ 8 ∧ (8 : Nat) ≤ 8 ∧ (1 : Nat) ≤ 1 ∧ (7 : Nat) < 8 := by
  decide

/-- OrInstruction: the execute phase of each form; the fetch/decode phase at the last address of MEM under both
models, and without an argument; the first address beyond MEM. -/
theorem witness_OrInstruction :
    (decodedAt 0x0803 [0] 0).Inv ∧ (decodedAt 0x0000 [0] 0).Inv ∧ (decodedAt 0x0000 [0] 0).phase = .decoded ∧
    (idleAt .split [0x080F] 0).Inv ∧ (idleAt .fused [0x080F] 0).Inv ∧ (idleAt .fused [0x080F] 0).phase = .idle ∧
    effectiveAddr (.orDirect 15) (idleAt .split [0x080F] 0) < 16 ∧
    effectiveAddr .orRetained (idleAt .fused [0x0000] 0) < 16 ∧
    16 ≤ effectiveAddr (.orDirect 16) (idleAt .split [0x0810] 0) ∧ (2047 : Nat) < 2048 :=
  ⟨decodedAt_inv _ _ _ (by decide) (by decide) false, decodedAt_inv _ _ _ (by decide) (by decide) false, rfl,
    idleAt_inv _ _ _ (by decide) false, idleAt_inv _ _ _ (by decide) false, rfl, by decide, by decide, by decide,
    by decide⟩

/-- AndInstruction: the execute phase of each form; the fetch/decode phase at the last address of MEM under both
models, and without an argument; the first address beyond MEM. -/
theorem witness_AndInstruction :
    (decodedAt 0x1803 [0] 0).Inv ∧ (decodedAt 0x1000 [0] 0).Inv ∧ (decodedAt 0x1000 [0] 0).phase = .decoded ∧
    (idleAt .split [0x180F] 0).Inv ∧ (idleAt .fused [0x180F] 0).Inv ∧ (idleAt .fused [0x180F] 0).phase = .idle ∧
    effectiveAddr (.andDirect 15) (idleAt .split [0x180F] 0) < 16 ∧
    effectiveAddr .andRetained (idleAt .fused [0x1000] 0) < 16 ∧
    16 ≤ effectiveAddr (.andDirect 16) (idleAt .split [0x1810] 0) ∧ (2047 : Nat) < 2048 :=
  ⟨decodedAt_inv _ _ _ (by decide) (by decide) false, decodedAt_inv _ _ _ (by decide) (by decide) false, rfl,
    idleAt_inv _ _ _ (by decide) false, idleAt_inv _ _ _ (by decide) false, rfl, by decide, by decide, by decide,
    by decide⟩

/-- XorInstruction: the execute phase of each form; the fetch/decode phase at the last address of MEM under both
models, and without an argument; the first address beyond MEM. -/
theorem witness_XorInstruction :
    (decodedAt 0x2803 [0] 0).Inv ∧ (decodedAt 0x2000 [0] 0).Inv ∧ (decodedAt 0x2000 [0] 0).phase = .decoded ∧
    (idleAt .split [0x280F] 0).Inv ∧ (idleAt .fused [0x280F] 0).Inv ∧ (idleAt .fused [0x280F] 0).phase = .idle ∧
    effectiveAddr (.xorDirect 15) (idleAt .split [0x280F] 0) < 16 ∧
    effectiveAddr .xorRetained (idleAt .fused [0x2000] 0) < 16 ∧
    16 ≤ effectiveAddr (.xorDirect 16) (idleAt .split [0x2810] 0) ∧ (2047 : Nat) < 2048 :=
  ⟨decodedAt_inv _ _ _ (by decide) (by decide) false, decodedAt_inv _ _ _ (by decide) (by decide) false, rfl,
    idleAt_inv _ _ _ (by decide) false, idleAt_inv _ _ _ (by decide) false, rfl, by decide, by decide, by decide,
    by decide⟩

/-- NotInstruction: the execute phase of each form; the fetch/decode phase at the last address of MEM under both
models, and without an argument; the first address beyond MEM. -/
theorem witness_NotInstruction :
    (decodedAt 0x3803 [0] 0).Inv ∧ (decodedAt 0x3000 [0] 0).Inv ∧ (decodedAt 0x3000 [0] 0).phase = .decoded ∧
    (idleAt .split [0x380F] 0).Inv ∧ (idleAt .fused [0x380F] 0).Inv ∧ (idleAt .fused [0x380F] 0).phase = .idle ∧
    effectiveAddr (.notDirect 15) (idleAt .split [0x380F] 0) < 16 ∧
    effectiveAddr .notRetained (idleAt .fused [0x3000] 0) < 16 ∧
    16 ≤ effectiveAddr (.notDirect 16) (idleAt .split [0x3810] 0) ∧ (2047 : Nat) < 2048 :=
  ⟨decodedAt_inv _ _ _ (by decide) (by decide) false, decodedAt_inv _ _ _ (by decide) (by decide) false, rfl,
    idleAt_inv _ _ _ (by decide) false, idleAt_inv _ _ _ (by decide) false, rfl, by decide, by decide, by decide,
    by decide⟩

/-- LshiftInstruction: the execute phase of each form; the fetch/decode phase at the last address of MEM under both
models, and without an argument; the first address beyond MEM. -/
theorem witness_LshiftInstruction :
    (decodedAt 0x4803 [0] 0).Inv ∧ (decodedAt 0x4000 [0] 0).Inv ∧ (decodedAt 0x4000 [0] 0).phase = .decoded ∧
    (idleAt .split [0x480F] 0).Inv ∧ (idleAt .fused [0x480F] 0).Inv ∧ (idleAt .fused [0x480F] 0).phase = .idle ∧
    effectiveAddr (.lshiftDirect 15) (idleAt .split [0x480F] 0) < 16 ∧
    effectiveAddr .lshiftRetained (idleAt .fused [0x4000] 0) < 16 ∧
    16 ≤ effectiveAddr (.lshiftDirect 16) (idleAt .split [0x4810] 0) ∧ (2047 : Nat) < 2048 :=
  ⟨decodedAt_inv _ _ _ (by decide) (by decide) false, decodedAt_inv _ _ _ (by decide) (by decide) false, rfl,
    idleAt_inv _ _ _ (by decide) false, idleAt_inv _ _ _ (by decide) false, rfl, by decide, by decide, by decide,
    by decide⟩

/-- RshiftInstruction: the execute phase of each form; the fetch/decode phase at the last address of MEM under both
models, and without an argument; the first address beyond MEM. -/
theorem witness_RshiftInstruction :
    (decodedAt 0x5803 [0] 0).Inv ∧ (decodedAt 0x5000 [0] 0).Inv ∧ (decodedAt 0x5000 [0] 0).phase = .decoded ∧
    (idleAt .split [0x580F] 0).Inv ∧ (idleAt .fused [0x580F] 0).Inv ∧ (idleAt .fused [0x580F] 0).phase = .idle ∧
    effectiveAddr (.rshiftDirect 15) (idleAt .split [0x580F] 0) < 16 ∧
    effectiveAddr .rshiftRetained (idleAt .fused [0x5000] 0) < 16 ∧
    16 ≤ effectiveAddr (.rshiftDirect 16) (idleAt .split [0x5810] 0) ∧ (2047 : Nat) < 2048 :=
  ⟨decodedAt_inv _ _ _ (by decide) (by decide) false, decodedAt_inv _ _ _ (by decide) (by decide) false, rfl,
    idleAt_inv _ _ _ (by decide) false, idleAt_inv _ _ _ (by decide) false, rfl, by decide, by decide, by decide,
    by decide⟩

/-- LoadInstruction: the execute phase of each form; the fetch/decode phase at the last address of MEM under both
models, and without an argument; the first address beyond MEM. -/
theorem witness_LoadInstruction :
    (decodedAt 0x6803 [0] 0).Inv ∧ (decodedAt 0x6000 [0] 0).Inv ∧ (decodedAt 0x6000 [0] 0).phase = .decoded ∧
    (idleAt .split [0x680F] 0).Inv ∧ (idleAt .fused [0x680F] 0).Inv ∧ (idleAt .fused [0x680F] 0).phase = .idle ∧
    effectiveAddr (.loadDirect 15) (idleAt .split [0x680F] 0) < 16 ∧
    effectiveAddr .loadRetained (idleAt .fused [0x6000] 0) < 16 ∧
    16 ≤ effectiveAddr (.loadDirect 16) (idleAt .split [0x6810] 0) ∧ (2047 : Nat) < 2048 :=
  ⟨decodedAt_inv _ _ _ (by decide) (by decide) false, decodedAt_inv _ _ _ (by decide) (by decide) false, rfl,
    idleAt_inv _ _ _ (by decide) false, idleAt_inv _ _ _ (by decide) false, rfl, by decide, by decide, by decide,
    by decide⟩

/-- StoreInstruction: the execute phase of each form; the fetch/decode phase at the last address of MEM under both
models, and without an argument; the first address beyond MEM. -/
theorem witness_StoreInstruction :
    (decodedAt 0x7803 [0] 0).Inv ∧ (decodedAt 0x7000 [0] 0).Inv ∧ (decodedAt 0x7000 [0] 0).phase = .decoded ∧
    (idleAt .split [0x780F] 0).Inv ∧ (idleAt .fused [0x780F] 0).Inv ∧ (idleAt .fused [0x780F] 0).phase = .idle ∧
    effectiveAddr (.storeDirect 15) (idleAt .split [0x780F] 0) < 16 ∧
    effectiveAddr .storeRetained (idleAt .fused [0x7000] 0) < 16 ∧
    16 ≤ effectiveAddr (.storeDirect 16) (idleAt .split [0x7810] 0) ∧ (2047 : Nat) < 2048 :=
  ⟨decodedAt_inv _ _ _ (by decide) (by decide) false, decodedAt_inv _ _ _ (by decide) (by decide) false, rfl,
    idleAt_inv _ _ _ (by decide) false, idleAt_inv _ _ _ (by decide) false, rfl, by decide, by decide, by decide,
    by decide⟩

/-- InstructionFrame: an instruction that stores and one that does not, each with a next state. -/
theorem witness_InstructionFrame :
    Memory.wf (decodedAt 0x7000 [0] 0).mem = true ∧ (run .storeRetained (decodedAt 0x7000 [0] 0)).report = .done ∧
    (run .orRetained (decodedAt 0x0000 [0] 0)).report = .done := by decide

/-- FetchDecodePhase: a reserved word, the first address beyond MEM, the last one within. -/
theorem witness_FetchDecodePhase :
    (idleAt .split [0x8000, 0x6810, 0x680F] 0).imem[0]? = some 0x8000 ∧ decode 0x8000 = none ∧
    (idleAt .split [0x8000, 0x6810, 0x680F] 1).imem[1]? = some 0x6810 ∧ decode 0x6810 = some (.loadDirect 16) ∧
    (idleAt .split [0x8000, 0x6810, 0x680F] 2).imem[2]? = some 0x680F ∧ decode 0x680F = some (.loadDirect 15) ∧
    (idleAt .split [0x8000, 0x6810, 0x680F] 2).phase = .idle ∧
    (idleAt .split [0x8000, 0x6810, 0x680F] 2).cfg.phaseModel = .split := by decide

/-- ExecutePhaseNeverFaults. -/
theorem witness_ExecutePhaseNeverFaults :
    (decodedAt 0x7000 [0x7000] 0).Inv ∧ (decodedAt 0x7000 [0x7000] 0).phase = .decoded :=
  ⟨decodedAt_inv _ _ _ (by decide) (by decide) false, rfl⟩

/-- PcAdvancesOnlyInExecute, StepPerformsOnePhase: each phase, a complete program, a step that faults. -/
theorem witness_phases :
    (decodedAt 0x7000 [0x7000] 0).Inv ∧ (decodedAt 0x7000 [0x7000] 0).pc ≠ (decodedAt 0x7000 [0x7000] 0).len ∧
    (idleAt .split [0] 0).Inv ∧ (idleAt .split [0] 0).pc ≠ (idleAt .split [0] 0).len ∧
    (idleAt .split [0] 1).Inv ∧ (idleAt .split [0] 1).pc = (idleAt .split [0] 1).len ∧
    (idleAt .split [0x8000] 0).Inv ∧ step (idleAt .split [0x8000] 0) = .fault (.unknownOperation 0x8000 0) ∧
    step (idleAt .split [0] 1) = .next (idleAt .split [0] 1) :=
  ⟨decodedAt_inv _ _ _ (by decide) (by decide) false, by decide, idleAt_inv _ _ _ (by decide) false, by decide,
    idleAt_inv _ _ _ (by decide) false, rfl, idleAt_inv _ _ _ (by decide) false, rfl, rfl⟩

/-- StepRunsDecodedInstruction: a word due for each phase. -/
theorem witness_StepRunsDecodedInstruction :
    decode 0x7803 = some (.storeDirect 3) ∧ (idleAt .split [0x7803] 0).phase = .idle ∧
    (idleAt .split [0x7803] 0).imem[0]? = some 0x7803 ∧ (decodedAt 0x7803 [0x7803] 0).phase = .decoded ∧
    (decodedAt 0x7803 [0x7803] 0).irv = true ∧ (decodedAt 0x7803 [0x7803] 0).ir = 0x7803 ∧
    (decodedAt 0x7803 [0x7803] 0).pc ≠ (decodedAt 0x7803 [0x7803] 0).len := by decide

/-- StepCounts: a program without faults under each model. -/
theorem witness_StepCounts :
    (idleAt .split [0x680F, 0x3000] 0).Inv ∧ (idleAt .fused [0x680F, 0x3000] 0).Inv ∧
    (idleAt .split [0x680F, 0x3000] 0).faultFree ∧ (idleAt .fused [0x680F, 0x3000] 0).faultFree ∧
    (idleAt .fused [0x680F, 0x3000] 0).pc = 0 ∧ (idleAt .fused [0x680F, 0x3000] 0).phase = .idle := by
  exact ⟨idleAt_inv _ _ _ (by decide) false, idleAt_inv _ _ _ (by decide) false, List.all_eq_true.1 rfl,
    List.all_eq_true.1 rfl, rfl, rfl⟩

/-- FusedStepIsTwoSplitSteps, WholeInstructionFunction: one that faults, one that runs. -/
theorem witness_two_steps :
    (idleAt .split [0x6810] 0).Inv ∧ step (idleAt .split [0x6810] 0) = .fault (.outOfRange 16 (some 0)) ∧
    (idleAt .split [0x780F] 0).Inv ∧ (idleAt .split [0x780F] 0).phase = .idle ∧
    (idleAt .split [0x780F] 0).pc ≠ (idleAt .split [0x780F] 0).len ∧
    (perform .step (idleAt .split [0x780F] 0)).report = .done ∧ (idleAt .split [0x780F] 0).imem[0]? = some 0x780F ∧
    decode 0x780F = some (.storeDirect 15) ∧ decode 0x6810 = some (.loadDirect 16) :=
  ⟨idleAt_inv _ _ _ (by decide) false, rfl, idleAt_inv _ _ _ (by decide) false, rfl, by decide, by decide, rfl,
    by decide, by decide⟩

/-- PlaySetsRun, AutomaticStep: each clause (the program complete or not, RUN set or not, and a step that faults, that
completes the program and that does not). -/
theorem witness_play :
    (idleAt .split [0] 1).pc = (idleAt .split [0] 1).len ∧ (idleAt .split [0] 0).pc ≠ (idleAt .split [0] 0).len ∧
    ({ idleAt .split [0] 0 with run := true } : State).run = true ∧ (idleAt .split [0] 0).run = false ∧
    (idleAt .split [0] 0).late = false ∧
    step { idleAt .split [0x8000] 0 with run := true } = .fault (.unknownOperation 0x8000 0) ∧
    (perform .step { idleAt .split [0] 0 with run := true }).report = .done ∧
    (perform .step { decodedAt 0 [0] 0 with run := true }).state.pc = 1 := by
  refine ⟨rfl, by decide, rfl, rfl, rfl, rfl, by decide, by decide⟩

/-- PlayReachesCompletion. -/
theorem witness_PlayReachesCompletion :
    ({ idleAt .split [0x680F] 0 with run := true } : State).Inv ∧
    ({ idleAt .split [0x680F] 0 with run := true } : State).pc < 1 ∧
    ({ idleAt .split [0x680F] 0 with run := true } : State).faultFree := by
  exact ⟨idleAt_inv _ _ _ (by decide) true, by decide, List.all_eq_true.1 rfl⟩

/-- StopClearsRun, AtMostOneLateStep: STOP_SLACK 0, and a late step due or not. -/
theorem witness_stop :
    (idleAt .split [0] 0).cfg.stopSlack = false ∧ (idleAt .split [0] 0).late = false ∧
    (idleAt .split [0] 0).run = false ∧ ({ idleAt .split [0] 0 with late := true } : State).late = true ∧
    ({ idleAt .split [0] 1 with late := true } : State).pc = ({ idleAt .split [0] 1 with late := true } : State).len ∧
    ({ idleAt .split [0] 0 with late := true } : State).pc ≠ 1 ∧ (idleAt .split [0] 0).Inv :=
  ⟨rfl, rfl, rfl, rfl, rfl, by decide, idleAt_inv _ _ _ (by decide) false⟩

/-- HostWriteStoresAndRefreshes, MemoryAccess, OutOfRangeExactly: addresses 15 and 16. -/
theorem witness_addresses :
    (idleAt .split [] 0).Inv ∧ (15 : Nat) < (idleAt .split [] 0).cfg.size ∧ (idleAt .split [] 0).cfg.size ≤ 16 ∧
    Memory.wf (idleAt .split [] 0).mem = true ∧ (idleAt .split [] 0).phase = .idle :=
  ⟨idleAt_inv _ _ _ (by decide) false, by decide, by decide, rfl, rfl⟩

/-- AppendAddsAtTheEnd, InsertMovesUp: a store without a capacity, one with room and one that is full, and the
positions LEN and LEN + 1. -/
theorem witness_append_insert :
    (idleAt .split [0] 0).cfg.imemCap = none ∧ (idleAt .split [0] 0).imemFull = false ∧
    (idleAt .split [0] 0).len < 2 ∧ 1 ≤ (idleAt .split [0] 0).len ∧
    State.imemFull { idleAt .split [0] 0 with cfg := { Config.reference with imemCap := some 1 } } = true ∧
    State.imemFull { idleAt .split [0] 0 with cfg := { Config.reference with imemCap := some 2 } } = false := by
  decide

/-- InsertDuringRun: below PC and at PC, in each phase. -/
theorem witness_InsertDuringRun :
    (idleAt .split [0x6800, 0x4000] 1).Inv ∧ (decodedAt 0x4000 [0x6800, 0x4000] 1).Inv ∧
    (decodedAt 0x4000 [0x6800, 0x4000] 1).imemFull = false ∧ 0 < (decodedAt 0x4000 [0x6800, 0x4000] 1).pc ∧
    1 ≤ (decodedAt 0x4000 [0x6800, 0x4000] 1).pc ∧ (decodedAt 0x4000 [0x6800, 0x4000] 1).phase = .decoded :=
  ⟨idleAt_inv _ _ _ (by decide) false, decodedAt_inv _ _ _ (by decide) (by decide) false, rfl, by decide, by decide,
    rfl⟩

/-- HostWriteBetweenPhases: AR is 3; the host writes cells 3 and 15. -/
theorem witness_HostWriteBetweenPhases :
    (decodedAt 0x6803 [0x6803] 0).Inv ∧ (decodedAt 0x6803 [0x6803] 0).phase = .decoded ∧
    3 = (decodedAt 0x6803 [0x6803] 0).ar.toNat ∧ 15 ≠ (decodedAt 0x6803 [0x6803] 0).ar.toNat ∧
    15 < (decodedAt 0x6803 [0x6803] 0).cfg.size ∧ decode (decodedAt 0x6803 [0x6803] 0).ir = some (.loadDirect 3) :=
  ⟨decodedAt_inv _ _ _ (by decide) (by decide) false, rfl, rfl, by decide, by decide, by decide⟩

/-- SnapshotShowsTheState: IR empty and IR full, the last cell. -/
theorem witness_SnapshotShowsTheState :
    State.reset.irv = false ∧ (decodedAt 0x6803 [0x6803] 0).irv = true ∧
    decode (decodedAt 0x6803 [0x6803] 0).ir = some (.loadDirect 3) ∧ 15 < State.reset.cfg.size := by decide

/-- SnapshotDeterminesState, StepKeepsInvariants, EveryOperationKeepsInvariants, ProgramTouchesOnlyNamedCells,
FaultRepeats, UnknownOperationExactly: states with the invariants, one whose step answers a state, one whose step
faults. -/
theorem witness_invariants :
    (idleAt .split [0x680F] 0).Inv ∧ snapshot (idleAt .split [0x680F] 0) = snapshot (idleAt .split [0x680F] 0) ∧
    (perform .step (idleAt .split [0x680F] 0)).report = .done ∧ (idleAt .split [0x8000] 0).Inv ∧
    step (idleAt .split [0x8000] 0) = .fault (.unknownOperation 0x8000 0) :=
  ⟨idleAt_inv _ _ _ (by decide) false, rfl, by decide, idleAt_inv _ _ _ (by decide) false, rfl⟩

/-- MemoryWrittenOnlyByStoreAndHost: a cell changed by each of its three writers. -/
theorem witness_MemoryWrittenOnlyByStoreAndHost :
    (decodedAt 0x7803 [0x7803] 0).Inv ∧
    (perform .step (decodedAt 0x7803 [0x7803] 0)).state.cell 3 ≠ (decodedAt 0x7803 [0x7803] 0).cell 3 ∧
    (perform (.write 1 15) (decodedAt 0x7803 [0x7803] 0)).state.cell 15 ≠ (decodedAt 0x7803 [0x7803] 0).cell 15 ∧
    (perform .reset (decodedAt 0x7803 [0x7803] 0)).state.cell 3 ≠ (decodedAt 0x7803 [0x7803] 0).cell 3 :=
  ⟨decodedAt_inv _ _ _ (by decide) (by decide) false, by decide, by decide, by decide⟩

/-- FaultChangesNothing, EveryCauseOfEveryFault: each operation that can fault, and one that is refused. -/
theorem witness_faults :
    (idleAt .split [0x8000] 0).Inv ∧ (perform .step (idleAt .split [0x8000] 0)).report ≠ .done ∧
    (perform .step (idleAt .split [0x6810] 0)).report = .fault (.outOfRange 16 (some 0)) ∧
    (perform .auto { idleAt .split [0x8000] 0 with run := true }).report ≠ .done ∧
    (perform .lateStep { idleAt .split [0x8000] 0 with late := true }).report ≠ .done ∧
    (perform (.write 0 16) (idleAt .split [0x8000] 0)).report ≠ .done ∧
    (perform (.insert 0 2) (idleAt .split [0x8000] 0)).report ≠ .done ∧
    (perform (.append 0) { idleAt .split [] 0 with cfg := { Config.reference with imemCap := some 0 } }).report ≠
      .done :=
  ⟨idleAt_inv _ _ _ (by decide) false, by decide, by decide, by decide, by decide, by decide, by decide, by decide⟩

/-- ResetValues, AfterResetNothingRuns, CoresAreBuiltWithinConstraints, ConstructionHasInvariants,
DataRegisterMirrorsMemory, EveryReachableStateIsSafe: the reference core, the smallest core and one with the largest
memory, and parameters outside the constraints. -/
theorem witness_construction :
    (idleAt .split [] 0).cfg = Config.reference ∧ Config.reference.imemCap = none ∧ Config.wf Config.reference = true ∧
    Config.wf { Config.reference with w := 1, size := 1, resetAcc := 1 } = true ∧
    Config.wf { Config.reference with size := 2048, resetAcc := 255 } = true ∧
    Config.wf { Config.reference with size := 2049 } = false := by decide

/-- ProgramOnlyGrows: an operation other than `reset`. -/
theorem witness_ProgramOnlyGrows : Event.append 0 ≠ Event.reset ∧ Event.insert 0 0 ≠ Event.reset := by decide

end Sys2Proof.Tests
end

/-! SUPPORT. The invariants of the data path, ACC, AR, DR and MEM (10_state.md rules R20 and R28 to R32). They do not
depend on the control registers (PC, IR, PHASE, RUN, LATE, IMEM), so every operation keeps them by themselves, from any
state; the data-register invariant R29 at every step boundary is one of them. -/

namespace Sys2Proof

/-- The constraints on the parameters as facts about numbers (R4, R35, D5). -/
theorem Config.wf_iff (c : Config) :
    c.wf = true ↔ 1 ≤ c.w ∧ 1 ≤ c.size ∧ c.size ≤ 2048 ∧ c.resetAcc < 2 ^ c.w := by
  simp [Config.wf, and_assoc]

end Sys2Proof

namespace Sys2Proof.Machine

/-- The part of `State.Inv` that speaks of the parameters, ACC, AR, DR and MEM. -/
structure State.DataInv (s : State) : Prop where
  /-- The parameters are those of a core that can be built (R4, R35). -/
  cfgWf : s.cfg.wf = true
  /-- The masking invariant for ACC (R20, R32). -/
  accRange : s.acc < 2 ^ s.cfg.w
  /-- The address-register invariant (R30). -/
  arValid : s.ar.toNat < s.cfg.size
  /-- The data-register invariant (R29). -/
  drMirror : s.dr = s.cell s.ar.toNat
  /-- The masking invariant for MEM (R28, R32). -/
  memRange : ∀ a, s.cell a < 2 ^ s.cfg.w
  /-- No cell outside the memory holds anything (R28, R51). -/
  memBounded : ∀ a, s.cfg.size ≤ a → s.cell a = 0
  /-- The model's canonical form of MEM. -/
  memWf : Memory.wf s.mem = true

/-- The invariants of the data path are among those of a step boundary. -/
theorem State.Inv.dataInv {s : State} (h : s.Inv) : s.DataInv :=
  ⟨h.cfgWf, h.accRange, h.arValid, h.drMirror, h.memRange, h.memBounded, h.memWf⟩

namespace State.DataInv

variable {s t : State}

/-- The other registers and the program do not matter. -/
theorem congr (h : s.DataInv) (hcfg : t.cfg = s.cfg) (hacc : t.acc = s.acc) (har : t.ar = s.ar) (hdr : t.dr = s.dr)
    (hmem : t.mem = s.mem) : t.DataInv := by
  cases s; cases t; cases hcfg; cases hacc; cases har; cases hdr; cases hmem
  exact ⟨h.cfgWf, h.accRange, h.arValid, h.drMirror, h.memRange, h.memBounded, h.memWf⟩

/-- A core starts with them (R35). -/
theorem initial {c : Config} (hc : c.wf = true) : (State.initial c).DataInv := by
  obtain ⟨_, hsize, _, hacc⟩ := (Config.wf_iff c).1 hc
  exact ⟨hc, hacc, hsize, rfl, fun _ => Nat.two_pow_pos _, fun _ _ => rfl, rfl⟩

/-- A write of ACC keeps them, since ACC is masked (R20). -/
theorem setAcc (h : s.DataInv) (v : Nat) : (s.setAcc v).DataInv :=
  ⟨h.cfgWf, maskW_lt _ _, h.arValid, h.drMirror, h.memRange, h.memBounded, h.memWf⟩

/-- A write of a word to a valid cell keeps them if DR takes the word when the cell is the one AR selects (R29). -/
theorem writeCell (h : s.DataInv) {a v d : Nat} (ha : a < s.cfg.size) (hv : v < 2 ^ s.cfg.w)
    (hd : d = if s.ar.toNat = a then v else s.cell s.ar.toNat) :
    State.DataInv { s with mem := Memory.write s.mem a v, dr := d } := by
  have hcell : ∀ b, State.cell { s with mem := Memory.write s.mem a v, dr := d } b = if b = a then v else s.cell b :=
    fun b => cell_write h.memWf a b v
  refine ⟨h.cfgWf, h.accRange, h.arValid, hd.trans (hcell _).symm, fun b => ?_, fun b hb => ?_,
    Memory.wf_write h.memWf a v⟩
  · rw [hcell]
    split
    · exact hv
    · exact h.memRange b
  · rw [hcell, if_neg (Nat.ne_of_gt (ha.trans_le hb))]
    exact h.memBounded b hb

/-- The fetch/decode phase keeps them: AR and DR are written together (R111). -/
theorem decodedState (h : s.DataInv) {i : Instr} (hv : effectiveAddr i s < s.cfg.size) :
    (decodedState i s).DataInv := by
  obtain ⟨_, _, hsize, _⟩ := (Config.wf_iff _).1 h.cfgWf
  have har : (BitVec.ofNat 11 (effectiveAddr i s)).toNat = effectiveAddr i s := by
    rw [BitVec.toNat_ofNat, Nat.mod_eq_of_lt (hv.trans_le hsize)]
  exact ⟨h.cfgWf, h.accRange, har.trans_lt hv, (congrArg s.cell har).symm, h.memRange, h.memBounded, h.memWf⟩

/-- Each of the eight operations keeps them. For `store`, DR takes ACC and the cell takes ACC masked; they agree since
ACC is in range (R107). -/
theorem operateOf (h : s.DataInv) {o : Op} (ht : operateOf o s = .next t) : t.DataInv := by
  by_cases ho : o = .store
  · rw [ho, operateOf_store h.arValid] at ht
    cases ht
    exact h.writeCell h.arValid (maskW_lt _ _) (by rw [if_pos rfl, maskW_of_lt h.accRange])
  · rw [operateOf_alu ho] at ht
    cases ht
    exact h.setAcc _

/-- The advance keeps them (R112, line 2). -/
theorem advance (h : s.DataInv) : (advance s).DataInv := h.congr rfl rfl rfl rfl rfl

/-- Every instruction keeps them, in the split model and in the fused one. -/
theorem exec (h : s.DataInv) {i : Instr} (ht : exec i s = .next t) : t.DataInv := by
  rcases exec_cases ht with ⟨_, u, hu, rfl⟩ | ⟨_, _, hv, rfl⟩ | ⟨_, _, hv, u, hu, rfl⟩
  · exact (h.operateOf hu).advance
  · exact h.decodedState hv
  · exact ((h.decodedState hv).operateOf hu).advance

/-- A `step` that answers a state keeps them. -/
theorem step (h : s.DataInv) (ht : step s = .next t) : t.DataInv := by
  have hc := step_cases s
  rw [ht] at hc
  generalize hr : Host.Outcome.next t = r at hc
  cases hc with
  | complete => cases hr; exact h
  | fetched | pending => exact h.exec hr.symm
  | reserved | outside | invalid => cases hr

/-- A host `write` that answers a state keeps them: DR is refreshed from `MEM[AR]` (R130). -/
theorem hostWrite (h : s.DataInv) {v a : Nat} (ht : hostWrite v a s = .next t) : t.DataInv := by
  rcases Nat.lt_or_ge a s.cfg.size with ha | ha
  · rw [hostWrite_valid h.memWf h.arValid ha] at ht
    cases ht
    exact h.writeCell ha (maskW_lt _ _) rfl
  · rw [hostWrite_invalid ha] at ht
    cases ht

/-- A host `append` touches the program alone (R132). -/
theorem hostAppend (h : s.DataInv) {w : InstrWord} (ht : hostAppend w s = .next t) : t.DataInv := by
  rcases hostAppend_cases w s with ⟨_, e⟩ | ⟨_, e⟩ <;> rw [e] at ht <;> cases ht
  exact h.congr rfl rfl rfl rfl rfl

/-- A host `insert` touches the program alone (R133). -/
theorem hostInsert (h : s.DataInv) {w : InstrWord} {p : Nat} (ht : hostInsert w p s = .next t) : t.DataInv := by
  rcases hostInsert_cases w p s with ⟨_, e⟩ | ⟨_, _, e⟩ | ⟨_, _, e⟩ <;> rw [e] at ht <;> cases ht
  exact h.congr rfl rfl rfl rfl rfl

/-- An operation that faults or is refused changes nothing (R157), so only its next state is in question. -/
theorem react (h : s.DataInv) {o : Result} (ho : ∀ t, o = .next t → t.DataInv) : (react s o).state.DataInv := by
  cases o with
  | next t => exact ho t rfl
  | fault | refused => exact h

/-- `play` writes RUN and LATE at most (R117). -/
theorem play (h : s.DataInv) : (play s).DataInv := by
  unfold Machine.play
  split
  · exact h
  · exact h.congr rfl rfl rfl rfl rfl

/-- The end of a `play` writes RUN alone (R118). -/
theorem endRun (h : s.DataInv) : s.endRun.DataInv := h.congr rfl rfl rfl rfl rfl

/-- An automatic step keeps them, whether it completes the program, faults or neither (R118). -/
theorem autoStep (h : s.DataInv) : (autoStep s).state.DataInv := by
  cases hrun : s.run with
  | false => rw [autoStep_idle hrun]; exact h
  | true =>
    cases hc : s.complete with
    | true => rw [autoStep_complete hrun hc]; exact h.endRun
    | false =>
      cases ht : Machine.step s with
      | next t =>
        rw [autoStep_next hrun hc ht]
        show (if t.complete then t.endRun else t).DataInv
        split
        · exact (h.step ht).endRun
        · exact h.step ht
      | fault f => rw [autoStep_fault hrun hc ht]; exact h.endRun
      | refused r => rw [autoStep_refused hrun hc ht]; exact h.endRun

/-- The late step is a `step` that also clears LATE (R120). -/
theorem lateStep (h : s.DataInv) : (lateStep s).state.DataInv := by
  by_cases hdue : s.late = false ∨ s.complete = true
  · rw [lateStep_idle hdue]; exact h
  · obtain ⟨hl, hc⟩ := not_or.1 hdue
    rw [lateStep_due (Bool.eq_true_of_not_eq_false hl) (Bool.eq_false_of_not_eq_true hc)]
    exact (h.react fun _ => h.step).congr rfl rfl rfl rfl rfl

/-- Every operation of either agent keeps them. -/
theorem perform (h : s.DataInv) (e : Event) : (perform e s).state.DataInv := by
  cases e with
  | reset => exact initial h.cfgWf
  | write v a => exact h.react fun _ => h.hostWrite
  | append w => exact h.react fun _ => h.hostAppend
  | insert w p => exact h.react fun _ => h.hostInsert
  | step => exact h.react fun _ => h.step
  | play => exact h.play
  | stop slack => exact h.congr rfl rfl rfl rfl rfl
  | snapshot => exact h
  | auto => exact h.autoStep
  | lateStep => exact h.lateStep

end State.DataInv

/-- What every operation keeps holds after any sequence of operations. -/
theorem performAll_induction {P : State → Prop} (hstep : ∀ e s, P s → P (perform e s).state) (es : List Event)
    {s : State} (hs : P s) : P (performAll es s) := by
  induction es generalizing s with
  | nil => exact hs
  | cons e es ih => exact ih (hstep e s hs)

/-- Settles O56: R29 is one of the invariants of the data path, which hold at construction and which every operation
keeps. -/
theorem dataRegisterMirrorsMemory : Obligations.DataRegisterMirrorsMemory := by
  intro c es hc
  have hinv : (performAll es (State.initial c)).DataInv :=
    performAll_induction (fun e _ h => h.perform e) es (.initial hc)
  exact hinv.drMirror

end Sys2Proof.Machine

/-! Reads and writes of one cell (20_memory.md rules R51 to R53). -/

namespace Sys2Proof.Machine

/-- A write succeeds only at a valid address, and then it changes MEM alone (R53). -/
theorem memWrite_eq_ok {s t : State} {a v : Nat} :
    memWrite s a v = .ok t ↔ a < s.cfg.size ∧ t = { s with mem := Memory.write s.mem a (maskW s.cfg.w v) } := by
  constructor
  · intro ht
    rcases Nat.lt_or_ge a s.cfg.size with ha | ha
    · rw [memWrite_valid ha] at ht
      cases ht
      exact ⟨ha, rfl⟩
    · rw [memWrite_invalid ha] at ht
      cases ht
  · rintro ⟨ha, rfl⟩
    exact memWrite_valid ha

/-- A read right after a write of the same cell gives the value masked to `W` bits (R53). -/
theorem memRead_memWrite_same {s t : State} {a v : Nat} (hwf : Memory.wf s.mem = true)
    (ht : memWrite s a v = .ok t) : memRead t a = .ok (maskW s.cfg.w v) := by
  obtain ⟨ha, ht⟩ := memWrite_eq_ok.1 ht
  have hvalid : a < t.cfg.size := by rw [ht]; exact ha
  rw [memRead_valid hvalid, ht, cell_write hwf, if_pos rfl]

/-- A write that succeeds leaves every other cell as it was (R53). -/
theorem cell_memWrite_ne {s t : State} {a b v : Nat} (hwf : Memory.wf s.mem = true)
    (ht : memWrite s a v = .ok t) (hb : b ≠ a) : t.cell b = s.cell b := by
  obtain ⟨_, rfl⟩ := memWrite_eq_ok.1 ht
  rw [cell_write hwf, if_neg hb]

/-- Settles O41: the four outcomes of an access are the laws of `memRead` and `memWrite` at a valid and an invalid
address; what a write leaves in the cells comes from the laws of MEM. -/
theorem memoryAccess : Obligations.MemoryAccess := by
  intro s a
  refine ⟨memRead_valid, memRead_invalid, fun _ => memWrite_invalid, fun v ha hwf => ?_⟩
  have hwrite := memWrite_valid (v := v) ha
  exact ⟨_, hwrite, memRead_memWrite_same hwf hwrite, fun _ => cell_memWrite_ne hwf hwrite, rfl⟩

end Sys2Proof.Machine

/-! The bitwise functions of `W`-bit words (40_word_alu.md rules R91 to R94). -/

namespace Sys2Proof.Machine

/-- MASK has exactly the bits below `W` (R4). -/
@[simp] theorem testBit_wordMask (w i : Nat) : (wordMask w).testBit i = decide (i < w) :=
  Nat.testBit_two_pow_sub_one w i

@[simp] theorem testBit_andW (a b i : Nat) : (andW a b).testBit i = (a.testBit i && b.testBit i) :=
  Nat.testBit_and a b i

@[simp] theorem testBit_orW (a b i : Nat) : (orW a b).testBit i = (a.testBit i || b.testBit i) :=
  Nat.testBit_or a b i

@[simp] theorem testBit_xorW (a b i : Nat) : (xorW a b).testBit i = (a.testBit i ^^ b.testBit i) :=
  Nat.testBit_xor a b i

/-- Bit by bit, the subtraction from MASK is the complement within `W` bits (R94). -/
theorem testBit_notW {w a : Nat} (ha : a < 2 ^ w) (i : Nat) :
    (notW w a).testBit i = (decide (i < w) && !a.testBit i) := by
  have hsub : notW w a = 2 ^ w - (a + 1) := by rw [notW, wordMask, Nat.sub_sub, Nat.add_comm]
  rw [hsub, Nat.testBit_two_pow_sub_succ ha]

/-- A word has no bit at `W` or above (R90). -/
theorem lt_of_testBit {w a i : Nat} (ha : a < 2 ^ w) (hi : a.testBit i = true) : i < w :=
  (Nat.pow_lt_pow_iff_right Nat.one_lt_two).1 ((Nat.ge_two_pow_of_testBit hi).trans_lt ha)

theorem andW_wordMask {w a : Nat} (ha : a < 2 ^ w) : andW a (wordMask w) = a :=
  Nat.and_two_pow_sub_one_of_lt_two_pow ha

theorem orW_wordMask {w a : Nat} (ha : a < 2 ^ w) : orW a (wordMask w) = wordMask w := by
  refine Nat.eq_of_testBit_eq fun i => ?_
  rw [testBit_orW, testBit_wordMask, Bool.or_eq_right_iff_imp]
  exact fun hi => decide_eq_true (lt_of_testBit ha hi)

/-- The two definitions of `not_W` agree (R94). -/
theorem xorW_wordMask {w a : Nat} (ha : a < 2 ^ w) : xorW a (wordMask w) = notW w a := by
  refine Nat.eq_of_testBit_eq fun i => ?_
  rw [testBit_xorW, testBit_wordMask, testBit_notW ha]
  cases hi : a.testBit i with
  | false => simp
  | true => simp [lt_of_testBit ha hi]

theorem notW_wordMask (w : Nat) : notW w (wordMask w) = 0 := Nat.sub_self _

/-- `not_W` is its own inverse (R94). -/
theorem notW_notW {w a : Nat} (ha : a < 2 ^ w) : notW w (notW w a) = a :=
  Nat.sub_sub_self (Nat.le_sub_one_of_lt ha)

/-- Settles O7: the widths and the bits are the laws of each function, and the corner cases follow from the bits of
MASK. -/
theorem bitwisePrimitives : Obligations.BitwisePrimitives := by
  intro w a b ha hb
  refine ⟨⟨andW_lt hb, orW_lt ha hb, xorW_lt ha hb, notW_lt w a⟩,
    fun i => ⟨testBit_andW a b i, testBit_orW a b i, testBit_xorW a b i, testBit_notW ha i⟩,
    ⟨Nat.and_zero a, andW_wordMask ha, Nat.and_self a⟩,
    ⟨Nat.or_zero a, orW_wordMask ha, Nat.or_self a⟩,
    ⟨Nat.xor_zero a, xorW_wordMask ha, Nat.xor_self a⟩,
    ⟨Nat.sub_zero _, notW_wordMask w, notW_notW ha, (xorW_wordMask ha).symm⟩⟩

end Sys2Proof.Machine

/-! The binary rendering of a word (40_word_alu.md rule R99). -/

namespace Sys2Proof.Machine

@[simp] theorem length_renderW (w a : Nat) : (renderW w a).length = w := by
  induction w with
  | zero => rfl
  | succ n ih => rw [renderW, List.length_cons, ih]

/-- The character at distance `k` from the left shows the bit at distance `k` from the top. -/
theorem getElem?_renderW {w k : Nat} (a : Nat) (hk : k < w) :
    (renderW w a)[k]? = some (if a.testBit (w - 1 - k) then '1' else '0') := by
  induction w generalizing k with
  | zero => cases hk
  | succ n ih =>
    cases k with
    | zero => rfl
    | succ k =>
      have hbit : n + 1 - 1 - (k + 1) = n - 1 - k := by omega
      rw [renderW, List.getElem?_cons_succ, ih (Nat.lt_of_succ_lt_succ hk), hbit]

/-- Settles O10, by induction on the width: the rendering puts the top bit before the rendering of the bits below it. -/
theorem renderingHasWidthDigits : Obligations.RenderingHasWidthDigits :=
  fun w a => ⟨length_renderW w a, fun _ => getElem?_renderW a⟩

end Sys2Proof.Machine

/-! The instructions that write only ACC (41_logic.md rules R100 to R103): one rule for every operation but `store`, of
which each instruction's own rule is the case of its operation. -/

namespace Sys2Proof.Machine

/-- DR is a `W`-bit value, being the mirror of a cell (R29, R32). -/
theorem State.DataInv.drRange {s : State} (h : s.DataInv) : s.dr < 2 ^ s.cfg.w :=
  h.drMirror ▸ h.memRange s.ar.toNat

/-- On `W`-bit operands the mask of the choke point of R20 changes nothing. -/
theorem setAcc_rawAcc {s : State} (h : s.DataInv) (o : Op) :
    s.setAcc (rawAcc o s) = { s with acc := rawAcc o s } := by
  rw [State.setAcc, maskW_of_lt (rawAcc_lt h.accRange h.drRange)]

/-- The execute phase of an operation other than `store`, from a state with the invariants of the data path. -/
theorem executePhase_eq_rawAcc {o : Op} (ho : o ≠ .store) {s : State} (h : s.DataInv) :
    executePhase (operateOf o) s = .next { s with acc := rawAcc o s, pc := s.pc + 1, phase := .idle } := by
  rw [executePhase_alu ho, setAcc_rawAcc h]
  rfl

/-- The words of both forms, and both phases under both phase models, of an operation that writes only ACC. -/
theorem aluRule {o : Op} (ho : o ≠ .store) :
    Spec.AluRule (.ofOp o none) (fun a => .ofOp o (some a)) (o.code.toNat * 4096) (rawAcc o) := by
  refine ⟨?_, fun a ha => ?_, fun s hs i hi => ?_⟩
  · rw [encode_toNat_retained _ (Instr.arg_ofOp o none), Instr.op_ofOp]
  · rw [encode_toNat_direct _ a (Instr.arg_ofOp o (some a)) ha, Instr.op_ofOp]
  · have hop : i.op = o := by
      rcases hi with rfl | ⟨a, rfl⟩ <;> exact Instr.op_ofOp o _
    refine ⟨fun hd => ?decoded, fun hp hv => ⟨fun hm => ?split, fun hm => ?fused⟩, fun hp hv => ?invalid⟩
    case decoded => rw [exec_decoded hd, hop, executePhase_eq_rawAcc ho hs.dataInv]
    case split => rw [exec_split hp hm, fetchDecode_valid hv]; rfl
    case fused =>
      rw [exec_fused hp hm, fetchDecode_valid hv, andThen_next, hop,
        executePhase_eq_rawAcc ho (hs.dataInv.decodedState hv)]
      rfl
    case invalid =>
      cases hm : s.cfg.phaseModel with
      | split => rw [exec_split hp hm, fetchDecode_invalid hv]
      | fused => rw [exec_fused hp hm, fetchDecode_invalid hv, andThen_fault]

/-- Settles O11: `or_W` is the bitwise OR of ACC and DR (R92). -/
theorem orInstruction : Obligations.OrInstruction := aluRule (o := .or) (by decide)

/-- Settles O12: `and_W` is the bitwise AND of ACC and DR (R91). -/
theorem andInstruction : Obligations.AndInstruction := aluRule (o := .and) (by decide)

/-- Settles O13: `xor_W` is the bitwise exclusive OR of ACC and DR (R93). -/
theorem xorInstruction : Obligations.XorInstruction := aluRule (o := .xor) (by decide)

/-- Settles O14: `not_W` is the subtraction of ACC from MASK (R94). -/
theorem notInstruction : Obligations.NotInstruction := aluRule (o := .not) (by decide)

end Sys2Proof.Machine

/-! The logical shifts of `W`-bit words (40_word_alu.md rules R95 and R96) and the instructions that shift by one bit
(42_shift.md rules R104 and R105). -/

namespace Sys2Proof.Machine

@[simp] theorem testBit_shlW (w a n i : Nat) :
    (shlW w a n).testBit i = (decide (n ≤ i) && decide (i < w) && a.testBit (i - n)) := by
  rw [shlW, maskW, Nat.testBit_mod_two_pow, Nat.testBit_mul_two_pow, ← Bool.and_assoc,
    Bool.and_comm (decide (i < w))]

@[simp] theorem testBit_shrW (a n i : Nat) : (shrW a n).testBit i = a.testBit (i + n) :=
  Nat.testBit_div_two_pow a i

/-- A left shift by one bit is a doubling within `W` bits (R104). -/
theorem shlW_one (w a : Nat) : shlW w a 1 = 2 * a % 2 ^ w := by
  rw [shlW, maskW, Nat.pow_one, Nat.mul_comm]

/-- A right shift by one bit is a halving (R105). -/
theorem shrW_one (a : Nat) : shrW a 1 = a / 2 := by rw [shrW, Nat.pow_one]

theorem shlW_zero {w a : Nat} (ha : a < 2 ^ w) : shlW w a 0 = a := by
  rw [shlW, Nat.pow_zero, Nat.mul_one, maskW_of_lt ha]

@[simp] theorem shrW_zero (a : Nat) : shrW a 0 = a := by rw [shrW, Nat.pow_zero, Nat.div_one]

/-- A left shift by `W` or more loses every bit (R95, D24). -/
theorem shlW_eq_zero {w n : Nat} (a : Nat) (hn : w ≤ n) : shlW w a n = 0 :=
  Nat.mod_eq_zero_of_dvd ((Nat.pow_dvd_pow 2 hn).mul_left a)

/-- A right shift by `W` or more loses every bit (R96, D24). -/
theorem shrW_eq_zero {w a n : Nat} (ha : a < 2 ^ w) (hn : w ≤ n) : shrW a n = 0 :=
  Nat.div_eq_of_lt (ha.trans_le (Nat.pow_le_pow_right Nat.two_pos hn))

/-- Left shifts add up: the bits the first one masks off are lost to the second one as well. -/
theorem shlW_shlW (w a m n : Nat) : shlW w (shlW w a m) n = shlW w a (m + n) := by
  simp only [shlW, maskW, Nat.mod_mul_mod, Nat.pow_add, Nat.mul_assoc]

/-- Right shifts add up. -/
theorem shrW_shrW (a m n : Nat) : shrW (shrW a m) n = shrW a (m + n) := by
  rw [shrW, shrW, shrW, Nat.div_div_eq_div_mul, Nat.pow_add]

/-- `n` left shifts by one bit are one by `n`. -/
theorem iterate_shlW_one {w a : Nat} (ha : a < 2 ^ w) (n : Nat) : (fun x => shlW w x 1)^[n] a = shlW w a n := by
  induction n with
  | zero => exact (shlW_zero ha).symm
  | succ n ih => rw [Function.iterate_succ_apply', ih, shlW_shlW]

/-- `n` right shifts by one bit are one by `n`. -/
theorem iterate_shrW_one (a n : Nat) : (fun x => shrW x 1)^[n] a = shrW a n := by
  induction n with
  | zero => exact (shrW_zero a).symm
  | succ n ih => rw [Function.iterate_succ_apply', ih, shrW_shrW]

/-- Settles O15: the result is the left shift by one bit, and `W` of them are the left shift by `W`, which is 0. -/
theorem lshiftInstruction : Obligations.LshiftInstruction := by
  unfold Obligations.LshiftInstruction
  simp only [← shlW_one]
  refine ⟨aluRule (o := .lshift) (by decide), fun w a ha => ⟨testBit_shlW w a 1, ?_⟩⟩
  rw [iterate_shlW_one ha, shlW_eq_zero a (Nat.le_refl w)]

/-- Settles O16: the result is the right shift by one bit, and `W` of them are the right shift by `W`, which is 0 for a
`W`-bit value. Such a value has no bit `W`, so bit `W-1` of the result is 0. -/
theorem rshiftInstruction : Obligations.RshiftInstruction := by
  unfold Obligations.RshiftInstruction
  simp only [← shrW_one]
  refine ⟨aluRule (o := .rshift) (by decide), fun w a ha => ⟨fun i => ?_, ?_⟩⟩
  · rw [testBit_shrW, Bool.eq_and_self, decide_eq_true_iff]
    exact lt_of_testBit ha
  · rw [iterate_shrW_one, shrW_eq_zero ha (Nat.le_refl w)]

end Sys2Proof.Machine

/-! The instruction that copies DR into ACC (43_load_store.md rule R106). -/

namespace Sys2Proof.Machine

/-- Settles O17: `load` is one of the operations that write only ACC, and what it writes is DR. The cell at the
effective address reached DR in the fetch/decode phase, so the execute phase reads no memory (R106). -/
theorem loadInstruction : Obligations.LoadInstruction := aluRule (o := .load) (by decide)

end Sys2Proof.Machine

/-! The steps of the sequencer (44_sequencer.md section 2 and rules R113 to R116): what a step that answers a state has
done, that it keeps the invariants, and how far a program has got after a number of steps. -/

namespace Sys2Proof.Machine

/-- The ways from a state to the one a `step` answers: nothing on a complete program, one of the two phases, or under
the fused model both (R114, R115). -/
inductive StepNext (s : State) : State → Prop where
  | complete (hc : s.pc = s.len) : StepNext s s
  | executed (hc : s.pc ≠ s.len) (hp : s.phase = .decoded) (i : Instr) (t : State)
      (ht : executePhase (operateOf i.op) s = .next t) : StepNext s t
  | fetched (hc : s.pc ≠ s.len) (hp : s.phase = .idle) (hm : s.cfg.phaseModel = .split) (w : InstrWord) (i : Instr)
      (hi : decode w = some i) (hv : effectiveAddr i s < s.cfg.size) : StepNext s (decodedState i s)
  | fused (hc : s.pc ≠ s.len) (hp : s.phase = .idle) (hm : s.cfg.phaseModel = .fused) (w : InstrWord) (i : Instr)
      (hi : decode w = some i) (hv : effectiveAddr i s < s.cfg.size) (t : State)
      (ht : executePhase (operateOf i.op) (decodedState i s) = .next t) : StepNext s t

/-- A `step` that answers a state went one of these ways. -/
theorem stepNext_of_step {s t : State} (h : step s = .next t) : StepNext s t := by
  have hcase := step_cases s
  rw [h] at hcase
  generalize hr : Host.Outcome.next t = r at hcase
  cases hcase with
  | complete hc => cases hr; exact .complete hc
  | fetched hc hp w i _ hi =>
    rcases exec_cases hr.symm with ⟨hd, _⟩ | ⟨_, hm, hv, rfl⟩ | ⟨_, hm, hv, u, hu, rfl⟩
    · rw [hp] at hd; cases hd
    · exact .fetched hc hp hm w i hi hv
    · exact .fused hc hp hm w i hi hv _ (executePhase_eq_next.2 ⟨u, hu, rfl⟩)
  | pending hc hp _ i _ =>
    rcases exec_cases hr.symm with ⟨_, u, hu, rfl⟩ | ⟨hd, _⟩ | ⟨hd, _⟩
    · exact .executed hc hp i _ (executePhase_eq_next.2 ⟨u, hu, rfl⟩)
    · rw [hp] at hd; cases hd
    · rw [hp] at hd; cases hd
  | reserved | outside | invalid => cases hr

/-- A word that decodes is legal again when it is read back from IR (R77). -/
theorem decode_encode_isSome {w : InstrWord} {i : Instr} (hi : decode w = some i) :
    (decode (encode i)).isSome = true := by
  rw [(encode_of_decode hi).1, hi]; rfl

/-- A `step` that answers a state keeps every invariant (R28 to R32). -/
theorem State.Inv.step {s t : State} (h : s.Inv) (ht : step s = .next t) : t.Inv := by
  obtain ⟨hcfgWf, hacc, har, hdr, hmem, hbound, hwf⟩ := h.dataInv.step ht
  obtain ⟨hcfg, hrun, hlate, himem⟩ := step_frame ht
  have hlen : t.len = s.len := congrArg List.length himem
  have hpc := h.pcRange
  have hlateStopped : t.late = true → t.run = false ∧ t.cfg.stopSlack = true := by
    rw [hlate, hrun, hcfg]; exact h.lateStopped
  have hcap : ∀ n, t.cfg.imemCap = some n → t.len ≤ n := by
    rw [hcfg, hlen]; exact h.capacity
  suffices hctl : t.pc ≤ t.len ∧ (t.phase = .decoded → t.pc < t.len ∧ t.irv = true) ∧
      (t.irv = true → (decode t.ir).isSome = true) ∧ (t.irv = false → t.ir = 0) ∧
      (t.cfg.phaseModel = .fused → t.phase = .idle) by
    obtain ⟨h1, h2, h3, h4, h5⟩ := hctl
    exact ⟨hcfgWf, hacc, har, hdr, hmem, hbound, hwf, h1, h2, h3, h4, h5, hlateStopped, hcap⟩
  rw [hlen, hcfg]
  cases stepNext_of_step ht with
  | complete => exact ⟨hpc, h.decodedPending, h.irLegal, h.irBlank, h.fusedIdle⟩
  | executed hc _ _ _ hu =>
    obtain ⟨_, _, hir, hirv, htpc, hidle, _⟩ := executePhase_frame hu
    rw [htpc, hidle, hir, hirv]
    exact ⟨by omega, nofun, h.irLegal, h.irBlank, fun _ => rfl⟩
  | fetched hc _ hm _ _ hi _ =>
    exact ⟨hpc, fun _ => ⟨Nat.lt_of_le_of_ne hpc hc, rfl⟩, fun _ => decode_encode_isSome hi, nofun,
      fun hf => by rw [hm] at hf; cases hf⟩
  | fused hc _ _ _ _ hi _ _ hu =>
    obtain ⟨_, _, hir, hirv, htpc, hidle, _⟩ := executePhase_frame hu
    rw [htpc, hidle, hir, hirv]
    exact ⟨Nat.lt_of_le_of_ne hpc hc, nofun, fun _ => decode_encode_isSome hi, nofun, fun _ => rfl⟩

/-- With the invariants, PC is an index into the program unless the program is complete (R31). -/
theorem State.Inv.exists_word {s : State} (h : s.Inv) (hc : s.pc ≠ s.len) : ∃ w, s.imem[s.pc]? = some w :=
  ⟨_, List.getElem?_eq_getElem (Nat.lt_of_le_of_ne h.pcRange hc)⟩

/-- With the invariants and PHASE = Decoded, a `step` runs the instruction IR holds (R31, R114). -/
theorem State.Inv.step_decoded {s : State} (h : s.Inv) (hp : s.phase = .decoded) :
    ∃ i, decode s.ir = some i ∧ Machine.step s = exec i s := by
  obtain ⟨hpc, hirv⟩ := h.decodedPending hp
  obtain ⟨i, hi⟩ := Option.isSome_iff_exists.1 (h.irLegal hirv)
  exact ⟨i, hi, step_pending (Nat.ne_of_lt hpc) hp hirv hi⟩

/-- An instruction answers a state unless it has still to be fetched and its address is not valid (R111, R112). -/
theorem exec_total {i : Instr} {s : State} (h : s.DataInv) (hv : s.phase = .idle → effectiveAddr i s < s.cfg.size) :
    ∃ t, exec i s = .next t := by
  rcases s.phase_cases with hp | hp
  · have hvalid := hv hp
    rcases s.phaseModel_cases with hm | hm
    · exact ⟨_, (exec_split hp hm).trans (fetchDecode_valid hvalid)⟩
    · obtain ⟨t, ht⟩ := operateOf_total (o := i.op) (h.decodedState hvalid).arValid
      refine ⟨advance t, ?_⟩
      rw [exec_fused hp hm, fetchDecode_valid hvalid, andThen_next]
      exact executePhase_eq_next.2 ⟨t, ht, rfl⟩
  · obtain ⟨t, ht⟩ := operateOf_total (o := i.op) h.arValid
    exact ⟨advance t, (exec_decoded hp).trans (executePhase_eq_next.2 ⟨t, ht, rfl⟩)⟩

/-- With the invariants and PHASE = Decoded, a `step` answers a state (R112). -/
theorem State.Inv.step_decoded_total {s : State} (h : s.Inv) (hp : s.phase = .decoded) :
    ∃ t, Machine.step s = .next t := by
  obtain ⟨i, _, hstep⟩ := h.step_decoded hp
  rw [hstep]
  exact exec_total h.dataInv fun hidle => by rw [hp] at hidle; cases hidle

/-- A word that runs is legal, and its argument, if it has one, is a valid address (R152). -/
theorem Config.runs_iff (c : Config) (w : InstrWord) :
    Config.runs c w = true ↔ ∃ i, decode w = some i ∧ ∀ a, i.arg = some a → a < c.size := by
  unfold Config.runs
  cases decode w with
  | none => simp
  | some i => cases ha : i.arg <;> simp [ha]

/-- The address an instruction uses is valid where its argument is: without one it is AR (R30, R71). -/
theorem effectiveAddr_lt {i : Instr} {s : State} (har : s.ar.toNat < s.cfg.size)
    (harg : ∀ a, i.arg = some a → a < s.cfg.size) : effectiveAddr i s < s.cfg.size := by
  unfold effectiveAddr
  cases ha : i.arg with
  | none => exact har
  | some a => exact harg a ha

/-- Every step of a fault-free program answers a state (R116). -/
theorem State.Inv.step_total {s : State} (h : s.Inv) (hf : s.faultFree) (hc : s.pc ≠ s.len) :
    ∃ t, Machine.step s = .next t := by
  rcases s.phase_cases with hp | hp
  · obtain ⟨w, hw⟩ := h.exists_word hc
    have hmem : w ∈ s.imem.drop s.pc := List.mem_of_getElem? (i := 0) (by rw [List.getElem?_drop]; exact hw)
    obtain ⟨i, hi, harg⟩ := (Config.runs_iff _ w).1 (hf w hmem)
    rw [step_fetched hp hw hi]
    exact exec_total h.dataInv fun _ => effectiveAddr_lt h.arValid harg
  · exact h.step_decoded_total hp

/-- A `step` leaves PC, or it adds one and leaves PHASE = Idle (R113). -/
theorem step_pc {s t : State} (h : step s = .next t) : t.pc = s.pc ∨ (t.pc = s.pc + 1 ∧ t.phase = .idle) := by
  cases stepNext_of_step h with
  | complete | fetched => exact .inl rfl
  | executed _ _ _ _ hu | fused _ _ _ _ _ _ _ _ hu =>
    obtain ⟨_, _, _, _, hpc, hidle, _⟩ := executePhase_frame hu
    exact .inr ⟨hpc, hidle⟩

/-- The words still to be fetched are fewer after a step, so a fault-free program stays fault-free (R116). -/
theorem State.faultFree.step {s t : State} (hf : s.faultFree) (ht : step s = .next t) : t.faultFree := by
  obtain ⟨hcfg, _, _, himem⟩ := step_frame ht
  have hpc : s.pc ≤ t.pc := by
    rcases step_pc ht with h | ⟨h, _⟩ <;> omega
  intro w hw
  rw [himem] at hw
  rw [hcfg]
  exact hf w ((List.drop_sublist_drop_left s.imem hpc).mem hw)

/-- The steps the program has taken since PC = 0: two for each instruction under the split model, with one more where
the next instruction is decoded already, and one for each under the fused model (R116). -/
def State.stepsDone (s : State) : Nat :=
  match s.cfg.phaseModel, s.phase with
  | .split, .idle => 2 * s.pc
  | .split, .decoded => 2 * s.pc + 1
  | .fused, _ => s.pc

/-- The steps the whole program takes (R116). -/
def State.stepsTotal (s : State) : Nat :=
  match s.cfg.phaseModel with
  | .split => 2 * s.len
  | .fused => s.len

theorem State.stepsDone_idle {s : State} (hm : s.cfg.phaseModel = .split) (hp : s.phase = .idle) :
    s.stepsDone = 2 * s.pc := by rw [State.stepsDone, hm, hp]

theorem State.stepsDone_decoded {s : State} (hm : s.cfg.phaseModel = .split) (hp : s.phase = .decoded) :
    s.stepsDone = 2 * s.pc + 1 := by rw [State.stepsDone, hm, hp]

theorem State.stepsDone_fused {s : State} (hm : s.cfg.phaseModel = .fused) : s.stepsDone = s.pc := by
  rw [State.stepsDone, hm]

theorem State.stepsTotal_split {s : State} (hm : s.cfg.phaseModel = .split) : s.stepsTotal = 2 * s.len := by
  rw [State.stepsTotal, hm]

theorem State.stepsTotal_fused {s : State} (hm : s.cfg.phaseModel = .fused) : s.stepsTotal = s.len := by
  rw [State.stepsTotal, hm]

theorem State.stepsTotal_congr {s t : State} (hcfg : t.cfg = s.cfg) (himem : t.imem = s.imem) :
    t.stepsTotal = s.stepsTotal := by
  rw [State.stepsTotal, State.stepsTotal, State.len, State.len, hcfg, himem]

/-- At PC = 0 and PHASE = Idle no step is done. -/
theorem State.stepsDone_start {s : State} (hpc : s.pc = 0) (hp : s.phase = .idle) : s.stepsDone = 0 := by
  rcases s.phaseModel_cases with hm | hm
  · rw [State.stepsDone_idle hm hp, hpc]
  · rw [State.stepsDone_fused hm, hpc]

/-- Under the split model the steps done tell PC and PHASE (R116). -/
theorem State.pc_phase_of_stepsDone {s : State} (hm : s.cfg.phaseModel = .split) :
    s.pc = s.stepsDone / 2 ∧ s.phase = if s.stepsDone % 2 = 1 then .decoded else .idle := by
  rcases s.phase_cases with hp | hp
  · rw [State.stepsDone_idle hm hp, if_neg (by omega)]
    exact ⟨by omega, hp⟩
  · rw [State.stepsDone_decoded hm hp, if_pos (by omega)]
    exact ⟨by omega, hp⟩

/-- The program is complete when all its steps are done. -/
theorem State.pc_eq_len_of_stepsDone {s : State} (h : s.stepsDone = s.stepsTotal) : s.pc = s.len := by
  rcases s.phaseModel_cases with hm | hm
  · obtain ⟨hpc, _⟩ := State.pc_phase_of_stepsDone hm
    rw [State.stepsTotal_split hm] at h
    omega
  · rw [State.stepsTotal_fused hm, State.stepsDone_fused hm] at h
    exact h

/-- While steps are left the program is not complete. -/
theorem State.pc_ne_len_of_stepsDone {s : State} (h : s.stepsDone < s.stepsTotal) : s.pc ≠ s.len := by
  rcases s.phaseModel_cases with hm | hm
  · obtain ⟨hpc, _⟩ := State.pc_phase_of_stepsDone hm
    rw [State.stepsTotal_split hm] at h
    omega
  · rw [State.stepsTotal_fused hm, State.stepsDone_fused hm] at h
    exact Nat.ne_of_lt h

/-- On a program that is not complete, a `step` that answers a state is one step more. -/
theorem stepsDone_step {s t : State} (hc : s.pc ≠ s.len) (ht : step s = .next t) :
    t.stepsDone = s.stepsDone + 1 := by
  obtain ⟨hcfg, _⟩ := step_frame ht
  cases stepNext_of_step ht with
  | complete h => exact absurd h hc
  | fetched _ hp hm _ i =>
    have hdecoded : (decodedState i s).stepsDone = 2 * s.pc + 1 := State.stepsDone_decoded hm rfl
    rw [hdecoded, State.stepsDone_idle hm hp]
  | executed _ hp _ _ hu =>
    obtain ⟨_, _, _, _, hpc, hidle, _⟩ := executePhase_frame hu
    rcases s.phaseModel_cases with hm | hm
    · rw [State.stepsDone_decoded hm hp, State.stepsDone_idle (hcfg ▸ hm) hidle, hpc]
      rfl
    · rw [State.stepsDone_fused hm, State.stepsDone_fused (hcfg ▸ hm), hpc]
  | fused _ _ hm _ _ _ _ _ hu =>
    obtain ⟨_, _, _, _, hpc, _⟩ := executePhase_frame hu
    rw [State.stepsDone_fused hm, State.stepsDone_fused (hcfg ▸ hm), hpc]
    rfl

/-- A run in two parts; for any machine of the host's interface. -/
theorem run_add (M : Host.Core) {m : Nat} (n : Nat) {s t : M.State} (h : M.run m s = .next t) :
    M.run (m + n) s = M.run n t := by
  induction m generalizing s with
  | zero => cases h; rw [Nat.zero_add]
  | succ m ih =>
    rw [Nat.succ_add]
    cases hs : M.step s with
    | next u =>
      rw [run_succ_of_next M _ s u hs] at h ⊢
      exact ih h
    | fault | refused => rw [Host.Core.run, hs] at h; cases h

/-- `k` steps of a fault-free program that has as many left go through and are `k` steps more (R116). -/
theorem core_run_faultFree (k : Nat) {s : State} (h : s.Inv) (hf : s.faultFree)
    (hk : s.stepsDone + k ≤ s.stepsTotal) :
    ∃ t : State, Host.Core.run Sys2Proof.core k s = .next t ∧ t.Inv ∧ t.cfg = s.cfg ∧ t.imem = s.imem ∧
      t.stepsDone = s.stepsDone + k := by
  induction k generalizing s with
  | zero => exact ⟨s, rfl, h, rfl, rfl, rfl⟩
  | succ k ih =>
    have hc : s.pc ≠ s.len := State.pc_ne_len_of_stepsDone (by omega)
    obtain ⟨u, hu⟩ := h.step_total hf hc
    obtain ⟨hcfg, _, _, himem⟩ := step_frame hu
    have hdone := stepsDone_step hc hu
    have htotal := State.stepsTotal_congr hcfg himem
    obtain ⟨t, ht, hinv, hcfg', himem', hdone'⟩ := ih (h.step hu) (hf.step hu) (by omega)
    exact ⟨t, (core_run_succ hu).trans ht, hinv, hcfg'.trans hcfg, himem'.trans himem, by omega⟩

/-- The steps that are left complete a fault-free program, and every further step is a no-op (R116). -/
theorem core_run_completes {s : State} (h : s.Inv) (hf : s.faultFree) (hstart : s.stepsDone = 0) :
    ∃ t : State, t.pc = s.len ∧ ∀ k, s.stepsTotal ≤ k → Host.Core.run Sys2Proof.core k s = .next t := by
  obtain ⟨t, ht, _, hcfg, himem, hdone⟩ := core_run_faultFree s.stepsTotal h hf (by omega)
  have hlen : t.len = s.len := congrArg List.length himem
  have hpc : t.pc = t.len := State.pc_eq_len_of_stepsDone (by rw [State.stepsTotal_congr hcfg himem]; omega)
  refine ⟨t, hpc.trans hlen, fun k hk => ?_⟩
  obtain ⟨n, rfl⟩ := Nat.exists_eq_add_of_le hk
  rw [run_add Sys2Proof.core n ht, core_run_complete hpc]

/-- Settles O26: each step of a fault-free program is one of the steps R116 counts, and the number of them done gives
PC and PHASE. -/
theorem stepCounts : Obligations.StepCounts := by
  intro s h hpc hp hf
  have hstart := State.stepsDone_start hpc hp
  refine ⟨fun hm => ⟨fun k hk => ?split, ?splitEnd⟩, fun hm => ⟨fun k hk => ?fused, ?fusedEnd⟩⟩
  case split =>
    rw [← State.stepsTotal_split hm] at hk
    obtain ⟨t, ht, _, hcfg, _, hdone⟩ := core_run_faultFree k h hf (by omega)
    obtain ⟨htpc, htphase⟩ := State.pc_phase_of_stepsDone (s := t) (hcfg ▸ hm)
    rw [hdone, hstart, Nat.zero_add] at htpc htphase
    exact ⟨t, ht, htpc, htphase⟩
  case splitEnd => simpa only [State.stepsTotal_split hm] using core_run_completes h hf hstart
  case fused =>
    rw [← State.stepsTotal_fused hm] at hk
    obtain ⟨t, ht, hinv, hcfg, _, hdone⟩ := core_run_faultFree k h hf (by omega)
    have hmt : t.cfg.phaseModel = .fused := hcfg ▸ hm
    have hdoneAt := State.stepsDone_fused hmt
    exact ⟨t, ht, by omega, hinv.fusedIdle hmt⟩
  case fusedEnd => simpa only [State.stepsTotal_fused hm] using core_run_completes h hf hstart

end Sys2Proof.Machine

/-! PC over the operations of both agents (44_sequencer.md rule R113). -/

namespace Sys2Proof.Machine

/-- The state `t` has the PC of `s`, or it has the next one and PHASE = Idle, as after an execute phase (R112, R113). -/
def PcKeptOrAdvanced (s t : State) : Prop := t.pc = s.pc ∨ (t.pc = s.pc + 1 ∧ t.phase = .idle)

theorem PcKeptOrAdvanced.refl (s : State) : PcKeptOrAdvanced s s := .inl rfl

/-- A `step`, whether it answers a state, faults or is refused. -/
theorem react_step_pc (s : State) : PcKeptOrAdvanced s (react s (step s)).state := by
  cases ht : step s with
  | next t => exact step_pc ht
  | fault | refused => exact .refl s

/-- An automatic step: the end of a `play` writes RUN alone (R118). -/
theorem autoStep_pc (s : State) : PcKeptOrAdvanced s (autoStep s).state := by
  cases hrun : s.run with
  | false => rw [autoStep_idle hrun]; exact .refl s
  | true =>
    cases hc : s.complete with
    | true => rw [autoStep_complete hrun hc]; exact .refl s
    | false =>
      cases ht : step s with
      | next t =>
        rw [autoStep_next hrun hc ht]
        have hpc : PcKeptOrAdvanced s t := step_pc ht
        show PcKeptOrAdvanced s (if t.complete then t.endRun else t)
        split <;> exact hpc
      | fault f => rw [autoStep_fault hrun hc ht]; exact .refl s
      | refused r => rw [autoStep_refused hrun hc ht]; exact .refl s

/-- A late step: it clears LATE besides (R120). -/
theorem lateStep_pc (s : State) : PcKeptOrAdvanced s (lateStep s).state := by
  by_cases hdue : s.late = false ∨ s.complete = true
  · rw [lateStep_idle hdue]; exact .refl s
  · obtain ⟨hl, hc⟩ := not_or.1 hdue
    rw [lateStep_due (Bool.eq_true_of_not_eq_false hl) (Bool.eq_false_of_not_eq_true hc)]
    exact react_step_pc s

/-- `play` writes RUN and LATE at most (R117). -/
theorem play_pc (s : State) : (play s).pc = s.pc := by
  unfold play; split <;> rfl

/-- A host `write` leaves PC, at a valid address and at any other (R130). -/
theorem react_hostWrite_pc {s : State} (h : s.DataInv) (v a : Nat) : (react s (hostWrite v a s)).state.pc = s.pc := by
  rcases Nat.lt_or_ge a s.cfg.size with ha | ha
  · rw [hostWrite_valid h.memWf h.arValid ha]; rfl
  · rw [hostWrite_invalid ha]; rfl

/-- A host `append` leaves PC (R132). -/
theorem react_hostAppend_pc (w : InstrWord) (s : State) : (react s (hostAppend w s)).state.pc = s.pc := by
  rcases hostAppend_cases w s with ⟨_, e⟩ | ⟨_, e⟩ <;> rw [e] <;> rfl

/-- A host `insert` leaves PC, also at a position before it (R133, R134). -/
theorem react_hostInsert_pc (w : InstrWord) (p : Nat) (s : State) :
    (react s (hostInsert w p s)).state.pc = s.pc := by
  rcases hostInsert_cases w p s with ⟨_, e⟩ | ⟨_, _, e⟩ | ⟨_, _, e⟩ <;> rw [e] <;> rfl

/-- Among the operations other than `reset`, only those that run a `step` can add one to PC (R113). -/
theorem perform_pc {s : State} (h : s.DataInv) {e : Event} (he : e ≠ .reset) :
    (perform e s).state.pc = s.pc ∨
      ((e = .step ∨ e = .auto ∨ e = .lateStep) ∧ PcKeptOrAdvanced s (perform e s).state) := by
  cases e with
  | reset => exact absurd rfl he
  | write v a => exact .inl (react_hostWrite_pc h v a)
  | append w => exact .inl (react_hostAppend_pc w s)
  | insert w p => exact .inl (react_hostInsert_pc w p s)
  | play => exact .inl (play_pc s)
  | stop | snapshot => exact .inl rfl
  | step => exact .inr ⟨by simp, react_step_pc s⟩
  | auto => exact .inr ⟨by simp, autoStep_pc s⟩
  | lateStep => exact .inr ⟨by simp, lateStep_pc s⟩

/-- An execute phase that is due adds one to PC, which stays at most LEN (R112, R113). -/
theorem State.Inv.step_decoded_pc {s : State} (h : s.Inv) (hp : s.phase = .decoded) :
    ∃ t, Machine.step s = .next t ∧ t.pc = s.pc + 1 ∧ t.pc ≤ t.len := by
  obtain ⟨t, ht⟩ := h.step_decoded_total hp
  refine ⟨t, ht, ?_, (h.step ht).pcRange⟩
  cases stepNext_of_step ht with
  | complete hc => exact absurd hc (Nat.ne_of_lt (h.decodedPending hp).1)
  | executed _ _ _ _ hu =>
    obtain ⟨_, _, _, _, hpc, _⟩ := executePhase_frame hu
    exact hpc
  | fetched _ hidle | fused _ hidle => rw [hp] at hidle; cases hidle

/-- A `step` with PHASE = Idle under the split model leaves PC (R111). -/
theorem step_idle_split_pc {s t : State} (hp : s.phase = .idle) (hm : s.cfg.phaseModel = .split)
    (ht : step s = .next t) : t.pc = s.pc := by
  cases stepNext_of_step ht with
  | complete | fetched => rfl
  | executed _ hd => rw [hp] at hd; cases hd
  | fused _ _ hf => rw [hm] at hf; cases hf

/-- Settles O23: of the ways a step goes only those with an execute phase add one to PC, and no other operation but
`reset` writes PC. -/
theorem pcAdvancesOnlyInExecute : Obligations.PcAdvancesOnlyInExecute := by
  intro s h
  refine ⟨h.step_decoded_pc, fun hp hm => ?fetchDecode, fun f hf => ?fault, fun e he => ?operation⟩
  case fetchDecode =>
    show (react s (step s)).state.pc = s.pc
    cases ht : step s with
    | next t => exact step_idle_split_pc hp hm ht
    | fault | refused => rfl
  case fault =>
    show (react s (step s)).state.pc = s.pc
    rw [hf, react_fault]
  case operation =>
    rcases perform_pc h.dataInv he with hpc | ⟨hrunsStep, hpc | ⟨hpc, hidle⟩⟩
    · exact .inl hpc
    · exact .inl hpc
    · exact .inr ⟨hpc, hidle, hrunsStep⟩

end Sys2Proof.Machine

/-! `step` and RUN (44_sequencer.md rule R114): a step goes the same way whatever RUN is, and leaves it. -/

namespace Sys2Proof.Machine

/-- The state `s` with RUN = `b`. -/
def State.withRun (b : Bool) (s : State) : State := { s with run := b }

section withRun
variable (b : Bool) (s : State)

@[simp] theorem State.withRun_cfg : (s.withRun b).cfg = s.cfg := rfl
@[simp] theorem State.withRun_pc : (s.withRun b).pc = s.pc := rfl
@[simp] theorem State.withRun_phase : (s.withRun b).phase = s.phase := rfl
@[simp] theorem State.withRun_imem : (s.withRun b).imem = s.imem := rfl
@[simp] theorem State.withRun_complete : (s.withRun b).complete = s.complete := rfl
@[simp] theorem State.withRun_pending : (s.withRun b).pending = s.pending := rfl

end withRun

/-- The operation `f` neither reads RUN nor writes it. -/
def IgnoresRun (f : State → Result) : Prop :=
  ∀ (b : Bool) (s : State), f (s.withRun b) = andThen (f s) fun t => .next (t.withRun b)

/-- Two operations in a row ignore RUN where both do. -/
theorem ignoresRun_andThen {f g : State → Result} (hf : IgnoresRun f) (hg : IgnoresRun g) :
    IgnoresRun fun s => andThen (f s) g := by
  intro b s
  show andThen (f (s.withRun b)) g = andThen (andThen (f s) g) fun t => .next (t.withRun b)
  rw [hf]
  cases f s with
  | next t => exact hg b t
  | fault | refused => rfl

/-- `store` at an AR that is not a valid address faults; no run gets there (R30, R53). -/
theorem operateOf_store_invalid {s : State} (h : s.cfg.size ≤ s.ar.toNat) :
    operateOf .store s = .fault (.outOfRange s.ar.toNat none) := by
  simp only [operateOf, operateStore, memWrite_invalid h, raise]

/-- The eight operations ignore RUN: `store` at a valid AR and at any other, the rest by their new ACC. -/
theorem ignoresRun_operateOf (o : Op) : IgnoresRun (operateOf o) := by
  intro b s
  by_cases ho : o = .store
  · subst ho
    rcases Nat.lt_or_ge s.ar.toNat s.cfg.size with hv | hv
    · rw [operateOf_store hv, operateOf_store (s := s.withRun b) hv]; rfl
    · rw [operateOf_store_invalid hv, operateOf_store_invalid (s := s.withRun b) hv]; rfl
  · rw [operateOf_alu ho, operateOf_alu ho, andThen_next]
    cases o <;> rfl

theorem ignoresRun_executePhase (o : Op) : IgnoresRun (executePhase (operateOf o)) :=
  ignoresRun_andThen (ignoresRun_operateOf o) fun _ _ => rfl

theorem ignoresRun_fetchDecode (i : Instr) : IgnoresRun (fetchDecode i) := by
  intro b s
  rcases fetchDecode_cases i s with ⟨hv, e⟩ | ⟨hv, e⟩
  · rw [e, fetchDecode_valid (s := s.withRun b) hv]; rfl
  · rw [e, fetchDecode_invalid (s := s.withRun b) hv]; rfl

theorem ignoresRun_exec (i : Instr) : IgnoresRun (exec i) := by
  intro b s
  rcases s.phase_cases with hp | hp
  · rcases s.phaseModel_cases with hm | hm
    · rw [exec_split hp hm, exec_split (s := s.withRun b) hp hm, ignoresRun_fetchDecode]
    · rw [exec_fused hp hm, exec_fused (s := s.withRun b) hp hm]
      exact ignoresRun_andThen (ignoresRun_fetchDecode i) (ignoresRun_executePhase i.op) b s
  · rw [exec_decoded hp, exec_decoded (s := s.withRun b) hp, ignoresRun_executePhase]

theorem ignoresRun_fetchAndRun : IgnoresRun fetchAndRun := by
  intro b s
  unfold fetchAndRun
  rw [State.withRun_imem, State.withRun_pc]
  cases s.imem[s.pc]? with
  | none => rfl
  | some w =>
    cases hi : decode w with
    | none => simp only [hi]; rfl
    | some i => simpa only [hi] using ignoresRun_exec i b s

theorem ignoresRun_runPending : IgnoresRun runPending := by
  intro b s
  unfold runPending
  rw [State.withRun_pending]
  cases s.pending with
  | none => rfl
  | some i => exact ignoresRun_exec i b s

/-- RUN makes no difference to a `step` (R114). -/
theorem ignoresRun_step : IgnoresRun step := by
  intro b s
  unfold step sequencerStep
  rw [State.withRun_complete, State.withRun_phase]
  cases s.complete with
  | true => rfl
  | false =>
    cases s.phase with
    | idle => exact ignoresRun_fetchAndRun b s
    | decoded => exact ignoresRun_runPending b s

/-- With the invariants and PHASE = Idle, a `step` runs the word at PC, or faults where it is reserved (R114). -/
theorem State.Inv.step_idle {s : State} (h : s.Inv) (hc : s.pc ≠ s.len) (hp : s.phase = .idle) :
    ∃ w, s.imem[s.pc]? = some w ∧
      ((decode w = none ∧ Machine.step s = .fault (.unknownOperation w s.pc)) ∨
       (∃ i, decode w = some i ∧ Machine.step s = exec i s)) := by
  obtain ⟨w, hw⟩ := h.exists_word hc
  refine ⟨w, hw, ?_⟩
  cases hi : decode w with
  | none => exact .inl ⟨rfl, step_reserved hp hw hi⟩
  | some i => exact .inr ⟨i, rfl, step_fetched hp hw hi⟩

/-- A `step` that faults is reported and leaves the state (R157). -/
theorem perform_step_fault {s : State} {f : Fault} (hf : step s = .fault f) : perform .step s = ⟨s, .fault f⟩ := by
  show react s (step s) = _
  rw [hf, react_fault]

/-- Settles O24: what a step runs is fixed by PC, PHASE and IR; one that faults leaves the state, so the next one faults
again; and no part of a step reads or writes RUN. -/
theorem stepPerformsOnePhase : Obligations.StepPerformsOnePhase := by
  intro s h _
  refine ⟨fun hc => ?complete, h.step_idle, fun _ => h.step_decoded, fun f hf => ?fault, fun b t ht => ?runNext,
    fun b f hf => ?runFault⟩
  case complete =>
    show react s (step s) = _
    rw [step_complete hc, react_next]
  case fault =>
    have hreport := perform_step_fault hf
    exact ⟨hreport, by rw [hreport]; exact hreport⟩
  case runNext => exact (ignoresRun_step b s).trans (by rw [ht]; rfl)
  case runFault => exact (ignoresRun_step b s).trans (by rw [hf]; rfl)

end Sys2Proof.Machine

/-! UnknownOperation (60_exceptions.md rule R156): an instruction that was decoded can fault only on its address, so
the fault comes from decoding the fetched word and from nowhere else. -/

namespace Sys2Proof.Machine

/-- Two operations in a row fault where the first does, or where the second does after it. -/
theorem andThen_eq_fault {o : Result} {f : State → Result} {e : Fault} :
    andThen o f = .fault e ↔ o = .fault e ∨ ∃ t, o = .next t ∧ f t = .fault e := by
  cases o <;> simp

/-- The one fault of an operation is that of `store` at an AR that is not a valid address (R53, R107). -/
theorem operateOf_fault {o : Op} {s : State} {f : Fault} (h : operateOf o s = .fault f) :
    f = .outOfRange s.ar.toNat none := by
  by_cases ho : o = .store
  · subst ho
    rcases Nat.lt_or_ge s.ar.toNat s.cfg.size with hv | hv
    · rw [operateOf_store hv] at h; cases h
    · rw [operateOf_store_invalid hv] at h; cases h; rfl
  · rw [operateOf_alu ho] at h; cases h

/-- The execute phase faults where its operation does: the advance does not fault (R112). -/
theorem executePhase_fault {o : Op} {s : State} {f : Fault} (h : executePhase (operateOf o) s = .fault f) :
    f = .outOfRange s.ar.toNat none := by
  rcases andThen_eq_fault.1 h with hop | ⟨t, _, hadv⟩
  · exact operateOf_fault hop
  · cases hadv

/-- The one fault of the fetch/decode phase after its line 1 is that of its address (R111, line 3). -/
theorem fetchDecode_fault {i : Instr} {s : State} {f : Fault} (h : fetchDecode i s = .fault f) :
    f = .outOfRange (effectiveAddr i s) (some s.pc) := by
  rcases fetchDecode_cases i s with ⟨_, e⟩ | ⟨_, e⟩ <;> rw [e] at h <;> cases h
  rfl

/-- The one fault of a decoded instruction, in either phase, is OutOfRange (R152). -/
theorem exec_fault {i : Instr} {s : State} {f : Fault} (h : exec i s = .fault f) : ∃ a p, f = .outOfRange a p := by
  rcases s.phase_cases with hp | hp
  · rcases s.phaseModel_cases with hm | hm
    · rw [exec_split hp hm] at h
      exact ⟨_, _, fetchDecode_fault h⟩
    · rw [exec_fused hp hm] at h
      rcases andThen_eq_fault.1 h with hfetch | ⟨t, _, hexecute⟩
      · exact ⟨_, _, fetchDecode_fault hfetch⟩
      · exact ⟨_, _, executePhase_fault hexecute⟩
  · rw [exec_decoded hp] at h
    exact ⟨_, _, executePhase_fault h⟩

/-- A decoded instruction is never UnknownOperation (R156). -/
theorem exec_ne_unknownOperation (i : Instr) (s : State) (w : InstrWord) (p : Nat) :
    exec i s ≠ .fault (.unknownOperation w p) := by
  intro h
  obtain ⟨_, _, he⟩ := exec_fault h
  cases he

/-- A `step` is UnknownOperation exactly where it fetches a reserved word, in every state (R111 line 1, R156). -/
theorem step_unknownOperation_iff {s : State} {w : InstrWord} {p : Nat} :
    step s = .fault (.unknownOperation w p) ↔
      s.phase = .idle ∧ p = s.pc ∧ s.imem[s.pc]? = some w ∧ decode w = none := by
  constructor
  · intro h
    have hcase := step_cases s
    rw [h] at hcase
    generalize hr : Host.Outcome.fault (Fault.unknownOperation w p) = r at hcase
    cases hcase with
    | reserved _ hp v hv hd => cases hr; exact ⟨hp, rfl, hv, hd⟩
    | fetched _ _ _ i | pending _ _ _ i => exact absurd hr.symm (exec_ne_unknownOperation i s w p)
    | complete | outside | invalid => cases hr
  · rintro ⟨hp, rfl, hw, hd⟩
    exact step_reserved hp hw hd

/-- Every operation has its name, which no other operation has (R74). -/
theorem opOfName_opName (o : Op) : opOfName (opName o) = some o := by cases o <;> rfl

/-- The names of operations are those of the eight (R74). -/
theorem opOfName_eq_some {cs : List Char} {o : Op} : opOfName cs = some o ↔ cs = opName o := by
  constructor
  · intro h
    have hname : (opName o == cs) = true := List.find?_some (p := fun o => opName o == cs) h
    exact (beq_iff_eq.1 hname).symm
  · rintro rfl
    exact opOfName_opName o

/-- Settles O49: of the ways a step goes, only the fetch of a reserved word answers UnknownOperation, and a step that
faults leaves the state. -/
theorem unknownOperationExactly : Obligations.UnknownOperationExactly := by
  refine ⟨fun s w p _ => ⟨step_unknownOperation_iff, fun hf => ?unchanged⟩, fun _ _ => rfl, by decide,
    fun _ _ => opOfName_eq_some⟩
  case unchanged => rw [perform_step_fault hf]

end Sys2Proof.Machine

/-! The bit image (30_encoding.md section 2): decoding and encoding are inverse to each other, the sixteen patterns are
the conditions on the fields of a word that the decoder checks, and a word that fails them is reserved. -/

namespace Sys2Proof

/-- Settles O1: the fields of the encoded word are the parts of the instruction, and the argument is not cut off. -/
theorem decodeInvertsEncode : Obligations.DecodeInvertsEncode :=
  fun i hi => decode_encode_of_arg i ((Instr.wf_iff i).1 hi)

/-- Settles O2: a word is its three fields, and an argument that was read from 11 bits fits them. -/
theorem encodeInvertsDecode : Obligations.EncodeInvertsDecode := by
  intro w i hi
  obtain ⟨hw, harg⟩ := encode_of_decode hi
  exact ⟨hw, (Instr.wf_iff i).2 harg⟩

/-- The row of R77's table for an operation with or without an argument. -/
def patternRow (o : Op) (p : Bool) : PatternRow :=
  ⟨o, p, o.code ++ (if p then (1 : BitVec 1) else 0) ++ (0 : BitVec 11),
    (15 : BitVec 4) ++ (1 : BitVec 1) ++ (if p then (0 : BitVec 11) else 2047)⟩

/-- R77's table has one row for each operation with and without an argument, and no other. -/
theorem mem_patternRows {r : PatternRow} : r ∈ patternRows ↔ r = patternRow r.op r.hasArg := by
  constructor
  · revert r; decide
  · intro h
    rw [h]
    cases r.op <;> cases r.hasArg <;> decide

/-- A word is determined by its fields (R72). -/
theorem append_fields_inj {o o' : BitVec 4} {p p' : BitVec 1} {a a' : BitVec 11} :
    o ++ p ++ a = o' ++ p' ++ a' ↔ o = o' ∧ p = p' ∧ a = a' := by
  constructor
  · intro h
    have ho := congrArg opcField h
    have hp := congrArg pField h
    have ha := congrArg aField h
    rw [opcField_append, opcField_append] at ho
    rw [pField_append, pField_append] at hp
    rw [aField_append, aField_append] at ha
    refine ⟨ho, BitVec.eq_of_getLsbD_eq fun k hk => ?_, ha⟩
    obtain rfl : k = 0 := by omega
    exact hp
  · rintro ⟨rfl, rfl, rfl⟩; rfl

/-- A word matches a row where its fields are those of the row; the argument field is free where the row has an
argument (R77). -/
theorem patternRow_matches {o : Op} {p : Bool} {w : InstrWord} :
    (patternRow o p).matches w = true ↔ opcField w = o.code ∧ pField w = p ∧ (p = false → aField w = 0) := by
  have hopc : opcField w &&& 15 = opcField w := BitVec.and_allOnes
  have harg : aField w &&& 2047 = aField w := BitVec.and_allOnes
  have hfields : w &&& (patternRow o p).mask = opcField w ++ (if pField w then (1 : BitVec 1) else 0) ++
      (aField w &&& if p then 0 else 2047) := by
    conv_lhs => rw [word_eq_append w]
    rw [patternRow, BitVec.and_append, BitVec.and_append, hopc]
    cases pField w <;> rfl
  rw [PatternRow.matches, beq_iff_eq, hfields, patternRow, append_fields_inj]
  cases p with
  | true => cases pField w <;> simp
  | false =>
    simp only [Bool.false_eq_true, if_false, harg]
    cases pField w <;> simp

/-- The argument field is the low 11 bits (R72). -/
theorem toNat_aField (w : InstrWord) : (aField w).toNat = w.toNat % 2048 := by
  rw [aField, BitVec.extractLsb'_toNat, Nat.shiftRight_zero]

/-- A word decodes by its fields: the operation of OPC, and the argument field as `P` says (R77, R78). -/
theorem decode_eq_some_iff_fields {w : InstrWord} {i : Instr} :
    decode w = some i ↔ ∃ o p, (opcField w = o.code ∧ pField w = p ∧ (p = false → aField w = 0)) ∧
      i = Instr.ofOp o (if p then some (w.toNat % 2048) else none) := by
  rw [decode_eq_some, ← toNat_aField]
  constructor
  · intro h
    rcases decodeWord_cases w with ⟨_, h'⟩ | ⟨o, ho, ⟨hp, h'⟩ | ⟨hp, ha, h'⟩ | ⟨_, _, h'⟩⟩ <;>
      rw [h'] at h <;> cases h
    · exact ⟨o, true, ⟨(Op.code_of_ofCode ho).symm, hp, nofun⟩, rfl⟩
    · exact ⟨o, false, ⟨(Op.code_of_ofCode ho).symm, hp, fun _ => ha⟩, rfl⟩
  · rintro ⟨o, p, ⟨ho, rfl, ha⟩, rfl⟩
    rw [decodeWord, ho, Op.ofCode_code]
    cases hp : pField w with
    | true => rfl
    | false => simp [ha hp]

/-- Settles O3: what a row's pattern and mask ask of a word is what the decoder asks of its fields, and the fields of a
word belong to one row. -/
theorem legalWordsAreTheTable : Obligations.LegalWordsAreTheTable := by
  refine ⟨fun w i => ?rows, fun w r hr q hq hrw hqw => ?disjoint⟩
  case rows =>
    rw [decode_eq_some_iff_fields]
    constructor
    · rintro ⟨o, p, hfields, hi⟩
      exact ⟨patternRow o p, mem_patternRows.2 rfl, patternRow_matches.2 hfields, hi⟩
    · rintro ⟨r, hr, hrw, hi⟩
      rw [mem_patternRows.1 hr, patternRow_matches] at hrw
      exact ⟨r.op, r.hasArg, hrw, hi⟩
  case disjoint =>
    rw [mem_patternRows] at hr hq
    rw [hr, patternRow_matches] at hrw
    rw [hq, patternRow_matches] at hqw
    obtain ⟨hro, hrp, _⟩ := hrw
    obtain ⟨hqo, hqp, _⟩ := hqw
    have hop : r.op = q.op := by
      have hcode := congrArg Op.ofCode (hro.symm.trans hqo)
      rwa [Op.ofCode_code, Op.ofCode_code, Option.some.injEq] at hcode
    rw [hr, hq, hop, ← hrp, ← hqp]

/-- Settles O5, by evaluating the decoder on the twelve words. -/
theorem sampleWordsDecode : Obligations.SampleWordsDecode := by
  unfold Obligations.SampleWordsDecode; decide

end Sys2Proof

/-! The two sets of reserved words, and what happens to a word of either (30_encoding.md rule R78). -/

namespace Sys2Proof

/-- No operation has a code of 8 or more (R76, R78). -/
theorem Op.ofCode_eq_none {c : BitVec 4} : Op.ofCode c = none ↔ c.getLsbD 3 = true := by
  revert c; decide

theorem Op.ofCode_opcField_eq_none {w : InstrWord} : Op.ofCode (opcField w) = none ↔ w.getLsbD 15 = true := by
  rw [Op.ofCode_eq_none, opcField, BitVec.getLsbD_extractLsb']; rfl

/-- The words that OPC makes reserved (R78). -/
theorem decodeWord_eq_opcode {w : InstrWord} : decodeWord w = .error .opcode ↔ w.getLsbD 15 = true := by
  rw [← Op.ofCode_opcField_eq_none]
  rcases decodeWord_cases w with ⟨ho, h⟩ | ⟨o, ho, ⟨_, h⟩ | ⟨_, _, h⟩ | ⟨_, _, h⟩⟩ <;> simp [ho, h]

/-- The words that an argument field without an argument makes reserved (R78). -/
theorem decodeWord_eq_strayArgument {w : InstrWord} :
    decodeWord w = .error .strayArgument ↔
      w.getLsbD 15 = false ∧ w.getLsbD 11 = false ∧ w.toNat % 2048 ≠ 0 := by
  have hopc : w.getLsbD 15 = false ↔ Op.ofCode (opcField w) ≠ none := by
    rw [Ne, Op.ofCode_opcField_eq_none, Bool.not_eq_true]
  have harg : w.toNat % 2048 ≠ 0 ↔ aField w ≠ 0 := by
    rw [← toNat_aField, Ne, Ne, BitVec.toNat_eq]; rfl
  have hp : w.getLsbD 11 = pField w := rfl
  rw [hopc, harg, hp]
  rcases decodeWord_cases w with ⟨ho, h⟩ | ⟨o, ho, ⟨hp, h⟩ | ⟨hp, ha, h⟩ | ⟨hp, ha, h⟩⟩
  · simp [h, ho]
  · simp [h, hp]
  · simp [h, ha]
  · exact ⟨fun _ => ⟨by simp [ho], hp, ha⟩, fun _ => h⟩

end Sys2Proof

namespace Sys2Proof.Machine

/-- Taking a list apart at a position and putting an element between is its insertion there. -/
theorem take_append_cons_drop {α : Type} (w : α) {p : Nat} {l : List α} (hp : p ≤ l.length) :
    l.take p ++ w :: l.drop p = l.insertIdx p w := by
  induction p generalizing l with
  | zero => rfl
  | succ p ih =>
    cases l with
    | nil => cases hp
    | cons c l => rw [List.take_succ_cons, List.drop_succ_cons, List.insertIdx_succ_cons, List.cons_append,
        ih (Nat.le_of_succ_le_succ hp)]

/-- A host `insert` into a store with room, at a position up to LEN, is the insertion of the word there (R133). -/
theorem hostInsert_room {w : InstrWord} {p : Nat} {s : State} (hp : p ≤ s.len) (hf : s.imemFull = false) :
    hostInsert w p s = .next { s with imem := s.imem.insertIdx p w } := by
  rw [hostInsert, if_neg (Nat.not_lt.2 hp), hf, take_append_cons_drop w hp]; rfl

/-- A host `insert` beyond LEN (R133). -/
theorem hostInsert_outside {w : InstrWord} {p : Nat} {s : State} (hp : s.len < p) :
    hostInsert w p s = .fault (.outOfRange p none) := if_pos hp

/-- A host `insert` into a full store, at a position up to LEN (R132). -/
theorem hostInsert_full {w : InstrWord} {p : Nat} {s : State} (hp : p ≤ s.len) (hf : s.imemFull = true) :
    hostInsert w p s = .refused .imemFull := by
  rw [hostInsert, if_neg (Nat.not_lt.2 hp), if_pos hf]

/-- `append` is `insert` at position LEN (R132, R133). -/
theorem hostAppend_eq_hostInsert (w : InstrWord) (s : State) : hostAppend w s = hostInsert w s.len s := by
  cases hf : s.imemFull with
  | false =>
    rw [hostInsert_room (Nat.le_refl _) hf, hostAppend, hf, State.len, List.insertIdx_length_self]; rfl
  | true => rw [hostInsert_full (Nat.le_refl _) hf, hostAppend, if_pos hf]

/-- A host `append` to a store with room (R132). -/
theorem hostAppend_room {w : InstrWord} {s : State} (hf : s.imemFull = false) :
    hostAppend w s = .next { s with imem := s.imem ++ [w] } := by rw [hostAppend, hf]; rfl

/-- Settles O4: the two sets are two conditions on the fields; a fetched word of either is UnknownOperation, and the
host port does not look at the word it stores. -/
theorem reservedWordsFaultAtDecode : Obligations.ReservedWordsFaultAtDecode := by
  refine ⟨fun _ => decodeWord_eq_opcode, fun _ => decodeWord_eq_strayArgument, fun s w hp hw hd => ?fetched,
    fun s w hf => ⟨?appended, fun p hp => ?inserted⟩⟩
  case fetched => exact perform_step_fault (step_reserved hp hw hd)
  case appended =>
    show react s (hostAppend w s) = _
    rw [hostAppend_room hf, react_next]
  case inserted =>
    have hins : perform (.insert w p) s = react s (hostInsert w p s) := rfl
    rw [hins, hostInsert_room hp hf, react_next]
    exact ⟨rfl, List.getElem?_insertIdx_self.trans (if_pos hp)⟩

end Sys2Proof.Machine

/-! The text form of programs (30_encoding.md rules R80 and R81): the tokens of a printed instruction are its name, its
parentheses and its argument, and the grammar reads the instruction from them. -/

namespace Sys2Proof.Machine

/-- A lower-case letter goes on with a name (R80). -/
theorem tokenize_letters_lower {c : Char} (hc : c.isLower = true) (rev cs : List Char) :
    tokenize (.letters rev) (c :: cs) = tokenize (.letters (c :: rev)) cs := by
  rw [tokenize, if_pos hc]

/-- A run of lower-case letters before a parenthesis goes into one name (R80). -/
theorem tokenize_letters_append {name : List Char} (hname : ∀ c ∈ name, c.isLower = true) (rev cs : List Char) :
    tokenize (.letters rev) (name ++ '(' :: cs) =
      (tokenize .none cs).map (.name (rev.reverse ++ name) :: .openParen :: ·) := by
  induction name generalizing rev with
  | nil => rw [List.append_nil]; rfl
  | cons c name ih =>
    rw [List.cons_append, tokenize_letters_lower (hname c (by simp)), ih fun d hd => hname d (by simp [hd])]
    simp

/-- The name of an operation and its parenthesis are two tokens (R74, R80). -/
theorem tokenize_opName (o : Op) (cs : List Char) :
    tokenize .none (opName o ++ '(' :: cs) = (tokenize .none cs).map (.name (opName o) :: .openParen :: ·) := by
  have hlower : ∀ c ∈ opName o, c.isLower = true :=
    List.all_eq_true.1 (by cases o <;> rfl)
  obtain ⟨c, name, hname⟩ : ∃ c name, opName o = c :: name := by cases o <;> exact ⟨_, _, rfl⟩
  rw [hname] at hlower ⊢
  have hfirst : tokenize .none (c :: (name ++ '(' :: cs)) = tokenize (.letters [c]) (name ++ '(' :: cs) := by
    rw [tokenize, if_pos (hlower c (by simp))]
  rw [List.cons_append, hfirst, tokenize_letters_append fun d hd => hlower d (by simp [hd])]
  rfl

/-- The ten digits are digits to the tokenizer, and show their values. -/
theorem digitChar_spec {d : Nat} (hd : d < 10) :
    (digitChar d).isLower = false ∧ (digitChar d).isDigit = true ∧ (digitChar d).toNat - 48 = d := by
  revert d; decide

/-- A digit goes on with a numeral (R80). -/
theorem tokenize_digits_digitChar {d : Nat} (hd : d < 10) (n : Nat) (cs : List Char) :
    tokenize (.digits n) (digitChar d :: cs) = tokenize (.digits (n * 10 + d)) cs := by
  obtain ⟨hlower, hdigit, hval⟩ := digitChar_spec hd
  rw [tokenize, hlower, if_neg Bool.false_ne_true, if_pos hdigit]
  simp only [hval]

/-- A digit begins a numeral (R80). -/
theorem tokenize_none_digitChar {d : Nat} (hd : d < 10) (cs : List Char) :
    tokenize .none (digitChar d :: cs) = tokenize (.digits d) cs := by
  obtain ⟨hlower, hdigit, hval⟩ := digitChar_spec hd
  rw [tokenize, hlower, if_neg Bool.false_ne_true, if_pos hdigit]
  simp only [hval]

/-- The tokenizer reads a printed number below 10000 back (R80, R81). -/
theorem tokenize_decimal {n : Nat} (hn : n < 10000) (cs : List Char) :
    tokenize .none (decimal n ++ cs) = tokenize (.digits n) cs := by
  have hdigits {m : Nat} (hm : m = n) : tokenize (.digits m) cs = tokenize (.digits n) cs := by rw [hm]
  unfold decimal
  split_ifs <;> simp (disch := omega) only [List.cons_append, List.nil_append, tokenize_none_digitChar,
    tokenize_digits_digitChar] <;> exact hdigits (by omega)

/-- A well-formed instruction is what its name and its argument say (R80). -/
theorem instrOf_opName {i : Instr} (hi : i.wf = true) : instrOf (opName i.op) i.arg = some i := by
  simp [instrOf, opOfName_opName, hi]

/-- The printed form of an instruction parses back to it (R81). -/
theorem parseText_printInstr {i : Instr} (hi : i.wf = true) : parseText (printInstr i) = some [i] := by
  have hinstr := instrOf_opName hi
  cases ha : i.arg with
  | none =>
    rw [ha] at hinstr
    have htokens : tokenize .none (printInstr i) = some [.name (opName i.op), .openParen, .closeParen] := by
      rw [printInstr, ha]; exact tokenize_opName i.op [')']
    simp only [parseText, htokens, parseProgram, hinstr, Option.map_some]
  | some a =>
    rw [ha] at hinstr
    have hrange := (Instr.wf_iff i).1 hi a ha
    have htokens :
        tokenize .none (printInstr i) = some [.name (opName i.op), .openParen, .numeral a, .closeParen] := by
      simp only [printInstr, ha, List.append_assoc, List.cons_append, List.nil_append]
      rw [tokenize_opName, tokenize_decimal (by omega)]
      rfl
    simp only [parseText, htokens, parseProgram, hinstr, Option.map_some]

/-- Settles O6: the parser reads a printed instruction back, and disassembly prints exactly what decodes. -/
theorem assemblyRoundTrip : Obligations.AssemblyRoundTrip :=
  ⟨fun _ => parseText_printInstr, fun _ => Option.map_eq_none_iff⟩

end Sys2Proof.Machine

/-! The logical shifts by any distance, and the laws of the word functions (40_word_alu.md sections 3 and 4). -/

namespace Sys2Proof.Machine

/-- Shifting MASK right by one bit clears its top bit (R96). -/
theorem shrW_wordMask_one {w : Nat} (hw : 1 ≤ w) : shrW (wordMask w) 1 = 2 ^ (w - 1) - 1 := by
  obtain ⟨n, rfl⟩ := Nat.exists_eq_add_of_le' hw
  rw [shrW_one, wordMask, Nat.pow_succ, Nat.add_sub_cancel]
  omega

/-- Settles O8: the bits of each shift, and the corner cases of a distance of 0 and of `W` or more. -/
theorem shiftPrimitives : Obligations.ShiftPrimitives := by
  intro w a n ha
  exact ⟨fun i => ⟨testBit_shlW w a n i, testBit_shrW a n i⟩, shlW_zero ha, shrW_zero a,
    fun hn => ⟨shlW_eq_zero a hn, shrW_eq_zero ha hn⟩, shrW_wordMask_one⟩

/-- Settles O9: the laws of the bitwise functions are those of natural numbers, and at `W = 1` a shift by one is a shift
by `W`. -/
theorem wordLaws : Obligations.WordLaws := by
  intro w a b c ha _ _
  refine ⟨⟨Nat.and_comm a b, Nat.or_comm a b, Nat.xor_comm a b⟩,
    ⟨Nat.and_assoc a b c, Nat.or_assoc a b c, Nat.xor_assoc a b c⟩, ⟨shlW_one w a, shrW_one a⟩,
    fun n => ⟨shlW_lt w a n, shrW_lt ha⟩, fun hw => ⟨shlW_eq_zero a ?_, shrW_eq_zero ha ?_⟩⟩ <;> omega

end Sys2Proof.Machine

/-! The execute phase as one function of the state (44_sequencer.md sections 2, 3 and 6): with the invariants of the data
path it answers the same state for every operation but for ACC, DR and MEM. -/

namespace Sys2Proof.Machine

/-- The state after the execute phase of an operation at a valid AR: the new ACC, the cell and DR where the operation is
`store`, and the advance (R100 to R107, R112). -/
def executedState (o : Op) (s : State) : State :=
  { s with
    acc := rawAcc o s, dr := if o = .store then s.acc else s.dr,
    mem := if o = .store then Memory.write s.mem s.ar.toNat s.acc else s.mem, pc := s.pc + 1, phase := .idle }

/-- The execute phase of every operation, from a state with the invariants of the data path. -/
theorem executePhase_eq_executedState {s : State} (h : s.DataInv) (o : Op) :
    executePhase (operateOf o) s = .next (executedState o s) := by
  by_cases ho : o = .store
  · rw [ho, executePhase_store h.arValid, maskW_of_lt h.accRange]; rfl
  · rw [executePhase_eq_rawAcc ho h, executedState, if_neg ho, if_neg ho]

/-- The cells after an execute phase: `store` writes ACC to the one at AR (R107). -/
theorem cell_executedState {s : State} (hm : Memory.wf s.mem = true) (o : Op) (b : Nat) :
    (executedState o s).cell b = if o = .store ∧ b = s.ar.toNat then s.acc else s.cell b := by
  by_cases ho : o = .store
  · subst ho
    simp only [true_and]
    exact cell_write hm s.ar.toNat b s.acc
  · simp [executedState, State.cell, ho]

/-- The new ACC is the one R124 names, for the operands ACC and DR. -/
theorem rawAcc_eq_instrAcc (o : Op) (s : State) : rawAcc o s = Spec.instrAcc o s.cfg.w s.acc s.dr := by
  cases o with
  | lshift => exact shlW_one s.cfg.w s.acc
  | rshift => exact shrW_one s.acc
  | or | and | xor | not | load | store => rfl

theorem acc_executedState (o : Op) (s : State) :
    (executedState o s).acc = Spec.instrAcc o s.cfg.w s.acc s.dr := rawAcc_eq_instrAcc o s

/-- With the invariants and PHASE = Decoded, a `step` is the execute phase of the instruction IR holds (R114). -/
theorem State.Inv.step_eq_executedState {s : State} (h : s.Inv) (hp : s.phase = .decoded) {i : Instr}
    (hi : decode s.ir = some i) : Machine.step s = .next (executedState i.op s) := by
  obtain ⟨j, hj, hstep⟩ := h.step_decoded hp
  cases hi.symm.trans hj
  rw [hstep, exec_decoded hp, executePhase_eq_executedState h.dataInv]

/-- With the invariants and PHASE = Decoded, IR holds the word of an instruction (R31). -/
theorem State.Inv.exists_decoded {s : State} (h : s.Inv) (hp : s.phase = .decoded) : ∃ i, decode s.ir = some i :=
  Option.isSome_iff_exists.1 (h.irLegal (h.decodedPending hp).2)

/-- AR holds the effective address after a fetch/decode phase, since a valid address has 11 bits (R21, R111). -/
theorem toNat_ar_decodedState {s : State} (h : s.DataInv) {i : Instr}
    (hv : effectiveAddr i s < s.cfg.size) : (decodedState i s).ar.toNat = effectiveAddr i s := by
  obtain ⟨_, _, hsize, _⟩ := (Config.wf_iff _).1 h.cfgWf
  show (BitVec.ofNat 11 (effectiveAddr i s)).toNat = _
  rw [BitVec.toNat_ofNat, Nat.mod_eq_of_lt (hv.trans_le hsize)]

/-- With PHASE = Idle an address that is not valid is OutOfRange under either phase model (R111, R115). -/
theorem exec_invalid {i : Instr} {s : State} (hp : s.phase = .idle) (hv : s.cfg.size ≤ effectiveAddr i s) :
    exec i s = .fault (.outOfRange (effectiveAddr i s) (some s.pc)) := by
  rcases s.phaseModel_cases with hm | hm
  · rw [exec_split hp hm, fetchDecode_invalid hv]
  · rw [exec_fused hp hm, fetchDecode_invalid hv, andThen_fault]

/-- The fetch/decode phase at a valid address, as `exec` performs it under the split model (R114). -/
theorem exec_split_valid {i : Instr} {s : State} (hp : s.phase = .idle) (hm : s.cfg.phaseModel = .split)
    (hv : effectiveAddr i s < s.cfg.size) : exec i s = .next (decodedState i s) := by
  rw [exec_split hp hm, fetchDecode_valid hv]

/-- The whole instruction at a valid address, as `exec` performs it under the fused model (R115). -/
theorem exec_fused_valid {i : Instr} {s : State} (h : s.DataInv) (hp : s.phase = .idle)
    (hm : s.cfg.phaseModel = .fused) (hv : effectiveAddr i s < s.cfg.size) :
    exec i s = .next (executedState i.op (decodedState i s)) := by
  rw [exec_fused hp hm, fetchDecode_valid hv, andThen_next, executePhase_eq_executedState (h.decodedState hv)]

/-- The state after the execute phase of `store` has ACC in the cell AR selects (R107). -/
theorem storedAt_executedState {s : State} (hm : Memory.wf s.mem = true) :
    Spec.StoredAt s.ar.toNat s (executedState .store s) := by
  refine ⟨?_, fun b hb => ?_, rfl⟩
  · rw [cell_executedState hm, if_pos ⟨rfl, rfl⟩]
  · rw [cell_executedState hm, if_neg fun h => hb h.2]

/-- Settles O18: the execute phase of `store` is total at a valid AR, and the fetch/decode phase is the common one. -/
theorem storeInstruction : Obligations.StoreInstruction := by
  refine ⟨encode_toNat_retained _ rfl, fun a ha => ?word, fun s h i hi => ?_⟩
  case word =>
    have hcode : (Instr.storeDirect a).op.code.toNat = 7 := rfl
    rw [encode_toNat_direct _ a rfl ha, hcode]
  have hop : i.op = .store := by rcases hi with rfl | ⟨a, rfl⟩ <;> rfl
  refine ⟨fun hp => ?decoded, fun hp hv => ⟨fun hm => exec_split_valid hp hm hv, fun hm => ?fused⟩, exec_invalid⟩
  case decoded =>
    refine ⟨_, ?_, storedAt_executedState h.memWf⟩
    rw [exec_decoded hp, hop, executePhase_eq_executedState h.dataInv]
  case fused =>
    have hstored := storedAt_executedState (s := decodedState i s) h.memWf
    rw [toNat_ar_decodedState h.dataInv hv] at hstored
    exact ⟨_, exec_fused_valid h.dataInv hp hm hv, hop ▸ hstored⟩

/-- Settles O20: the argument of an instruction decides which of the two addressing modes it has. -/
theorem operandAddress : Obligations.OperandAddress := by
  intro o s
  exact ⟨by rw [effectiveAddr, Instr.arg_ofOp], fun a => by rw [effectiveAddr, Instr.arg_ofOp]⟩

/-- The fetch/decode phase of a `step` under the split model (R111): an address that is not valid faults, and otherwise
IR receives the word fetched. -/
theorem step_fetchDecode {s : State} {w : InstrWord} {i : Instr} (hp : s.phase = .idle)
    (hm : s.cfg.phaseModel = .split) (hw : s.imem[s.pc]? = some w) (hi : decode w = some i) :
    (s.cfg.size ≤ effectiveAddr i s → step s = .fault (.outOfRange (effectiveAddr i s) (some s.pc))) ∧
    (effectiveAddr i s < s.cfg.size → step s = .next (decodedState i s)) := by
  rw [step_fetched hp hw hi]
  exact ⟨exec_invalid hp, exec_split_valid hp hm⟩

/-- Settles O21: a `step` with PHASE = Idle decodes before it looks at the address (D10). -/
theorem fetchDecodePhase : Obligations.FetchDecodePhase := by
  intro s w hp hw hm
  refine ⟨step_reserved hp hw, fun i hi => ?_⟩
  obtain ⟨hinvalid, hvalid⟩ := step_fetchDecode hp hm hw hi
  refine ⟨hinvalid, fun hv => ?_⟩
  rw [hvalid hv, decodedState, (encode_of_decode hi).1]

/-- Settles O22: every operation answers a state at a valid AR, and writes ACC, DR and MEM at most. -/
theorem executePhaseNeverFaults : Obligations.ExecutePhaseNeverFaults := by
  intro s h hp
  refine ⟨h.step_decoded_total hp, fun i => ⟨executedState i.op s, ?_, rfl, rfl, rfl, rfl, rfl, rfl, rfl, rfl, rfl⟩⟩
  rw [exec_decoded hp, executePhase_eq_executedState h.dataInv]

/-- Settles O25: a `step` adds nothing to what `exec` does with the instruction due. -/
theorem stepRunsDecodedInstruction : Obligations.StepRunsDecodedInstruction := by
  intro s w i hi
  exact ⟨fun hp hw => step_fetched hp hw hi, fun hp hv hir hc => step_pending hc hp hv (hir ▸ hi)⟩

/-- What the operations do to MEM: `store` writes the cell at AR, and the rest nothing (R107). -/
theorem operateOf_mem {o : Op} {s t : State} (h : operateOf o s = .next t) :
    t.mem = s.mem ∨ (o = .store ∧ t.mem = Memory.write s.mem t.ar.toNat (maskW s.cfg.w s.acc)) := by
  by_cases ho : o = .store
  · subst ho
    rcases Nat.lt_or_ge s.ar.toNat s.cfg.size with hv | hv
    · rw [operateOf_store hv] at h; cases h; exact .inr ⟨rfl, rfl⟩
    · rw [operateOf_store_invalid hv] at h; cases h
  · rw [operateOf_alu ho] at h; cases h; exact .inl rfl

/-- `store` leaves ACC (R107). -/
theorem operateOf_store_acc {s t : State} (h : operateOf .store s = .next t) : t.acc = s.acc := by
  rcases Nat.lt_or_ge s.ar.toNat s.cfg.size with hv | hv
  · rw [operateOf_store hv] at h; cases h; rfl
  · rw [operateOf_store_invalid hv] at h; cases h

/-- What an instruction does to MEM: the execute phase of `store` writes the cell at AR, and nothing else writes one
(R28). -/
theorem exec_mem {i : Instr} {s t : State} (h : exec i s = .next t) :
    t.mem = s.mem ∨
      (i.op = .store ∧ t.mem = Memory.write s.mem t.ar.toNat (maskW s.cfg.w s.acc) ∧ t.pc = s.pc + 1) := by
  rcases exec_cases h with ⟨_, u, hu, rfl⟩ | ⟨_, _, _, rfl⟩ | ⟨_, _, _, u, hu, rfl⟩
  · obtain ⟨_, _, _, _, hpc, _⟩ := operateOf_frame hu
    exact (operateOf_mem hu).imp id fun ⟨ho, hmem⟩ => ⟨ho, hmem, congrArg (· + 1) hpc⟩
  · exact .inl rfl
  · obtain ⟨_, _, _, _, hpc, _⟩ := operateOf_frame hu
    exact (operateOf_mem hu).imp id fun ⟨ho, hmem⟩ => ⟨ho, hmem, congrArg (· + 1) hpc⟩

/-- No phase of `store` writes ACC (R107, R111). -/
theorem exec_store_acc {i : Instr} {s t : State} (ho : i.op = .store) (h : exec i s = .next t) : t.acc = s.acc := by
  rcases exec_cases h with ⟨_, u, hu, rfl⟩ | ⟨_, _, _, rfl⟩ | ⟨_, _, _, u, hu, rfl⟩
  · rw [ho] at hu
    rw [advance_acc, operateOf_store_acc hu]
  · rfl
  · rw [ho] at hu
    rw [advance_acc, operateOf_store_acc hu]; rfl

/-- The one cell an instruction can change is the one AR selects after it, and the instruction is then a `store` at the
end of its execute phase (R28). -/
theorem exec_cell {i : Instr} {s t : State} (hwf : Memory.wf s.mem = true) (h : exec i s = .next t) {b : Nat}
    (hb : t.cell b ≠ s.cell b) :
    i.op = .store ∧ t.ar.toNat = b ∧ t.cell b = maskW s.cfg.w s.acc ∧ t.pc = s.pc + 1 := by
  rcases exec_mem h with hmem | ⟨ho, hmem, hpc⟩
  · exact absurd (by rw [State.cell, hmem]; rfl) hb
  · have hcell : t.cell b = if b = t.ar.toNat then maskW s.cfg.w s.acc else s.cell b := by
      rw [State.cell, hmem, Memory.read_write hwf]; rfl
    by_cases hat : b = t.ar.toNat
    · rw [if_pos hat] at hcell
      exact ⟨ho, hat.symm, hcell, hpc⟩
    · rw [if_neg hat] at hcell
      exact absurd hcell hb

/-- Settles O19: of the operations only `store` writes a cell, the one at AR, and no phase writes AR after that. -/
theorem instructionFrame : Obligations.InstructionFrame := by
  intro i s t hwf ht
  obtain ⟨hcfg, hrun, hlate, himem⟩ := exec_frame ht
  refine ⟨himem, hrun, hlate, hcfg, fun ho b => ?other, fun ho => ⟨exec_store_acc ho ht, fun b hb => ?store⟩⟩
  case other =>
    by_contra hne
    obtain ⟨hstore, _⟩ := exec_cell hwf ht hne
    exact ho hstore
  case store =>
    by_contra hne
    obtain ⟨_, har, _⟩ := exec_cell hwf ht hne
    exact hb har.symm

/-- Settles O28: the first step puts the operand into DR, the second one computes with it; DR mirrors the cell at AR
after each of them (R29). -/
theorem wholeInstructionFunction : Obligations.WholeInstructionFunction := by
  intro s w i h hp hm hw hi
  obtain ⟨hinvalid, hvalid⟩ := step_fetchDecode hp hm hw hi
  refine ⟨hinvalid, fun hv => ?_⟩
  have hfetch := hvalid hv
  have hdecoded := h.step hfetch
  have hword : encode i = w := (encode_of_decode hi).1
  have hexecute := hdecoded.step_eq_executedState rfl (i := i) (by rw [← hi, ← hword]; rfl)
  have har := toNat_ar_decodedState h.dataInv hv
  refine ⟨_, _, hfetch, hexecute, acc_executedState _ _, har, fun b => ?cell, rfl, hword, rfl, ?mirror, rfl, rfl, rfl,
    rfl, rfl⟩
  case cell => rw [cell_executedState hdecoded.memWf, har]; rfl
  case mirror => rw [← har]; exact (hdecoded.step hexecute).drMirror

end Sys2Proof.Machine

/-! The two phase models (44_sequencer.md section 3): the fused core does the two phases of the split one at once. -/

namespace Sys2Proof.Machine

/-- The same state of the fused core. -/
def State.fused (s : State) : State := { s with cfg := { s.cfg with phaseModel := .fused } }

/-- The phase model is no part of the invariants of the data path. -/
theorem State.DataInv.fused {s : State} (h : s.DataInv) : s.fused.DataInv :=
  ⟨h.cfgWf, h.accRange, h.arValid, h.drMirror, h.memRange, h.memBounded, h.memWf⟩

/-- The execute phase does not depend on the phase model (R112). -/
theorem executedState_fused (o : Op) (s : State) : executedState o s.fused = (executedState o s).fused := by
  cases o <;> rfl

/-- Settles O27: the fused step runs the fetch/decode phase of the first split step and, where that does not fault, the
execute phase of the second. -/
theorem fusedStepIsTwoSplitSteps : Obligations.FusedStepIsTwoSplitSteps := by
  intro s h hp hm hc
  show (∀ f, step s = .fault f → step s.fused = .fault f) ∧
    ∀ t, step s = .next t → ∃ u, step t = .next u ∧ step s.fused = .next u.fused
  obtain ⟨w, hw⟩ := h.exists_word hc
  cases hi : decode w with
  | none =>
    rw [step_reserved hp hw hi, step_reserved (s := s.fused) hp hw hi]
    exact ⟨fun _ hf => hf, nofun⟩
  | some i =>
    have hstep := step_fetched hp hw hi
    rw [step_fetched (s := s.fused) hp hw hi]
    rcases Nat.lt_or_ge (effectiveAddr i s) s.cfg.size with hv | hv
    · rw [exec_split_valid hp hm hv] at hstep
      rw [exec_fused_valid h.dataInv.fused hp rfl hv, hstep]
      refine ⟨nofun, fun t ht => ?_⟩
      cases ht
      have hir : decode (decodedState i s).ir = some i := by rw [← hi, ← (encode_of_decode hi).1]; rfl
      refine ⟨_, (h.step hstep).step_eq_executedState rfl hir, ?_⟩
      rw [← executedState_fused]
      rfl
    · rw [hstep, exec_invalid hp hv, exec_invalid (s := s.fused) hp hv]
      exact ⟨fun _ hf => hf, nofun⟩

end Sys2Proof.Machine

/-! The operations of both agents (R8, R138): each of the ten writes the whole state, or one cell and DR, or the
program, or RUN and LATE, or runs a `step` and writes RUN and LATE besides. -/

namespace Sys2Proof.Machine

/-- The state `s` with RUN = `b` and LATE = `l`. -/
def State.withFlags (b l : Bool) (s : State) : State := { s with run := b, late := l }

/-- LATE is set only where STOP_SLACK may be drawn, and not while a `play` is in progress (R120). -/
def State.LateStopped (s : State) : Prop := s.late = true → s.run = false ∧ s.cfg.stopSlack = true

/-- RUN and LATE may be cleared. -/
theorem State.LateStopped.mono {s : State} (h : s.LateStopped) {b l : Bool} (hb : b = true → s.run = true)
    (hl : l = true → s.late = true) : (s.withFlags b l).LateStopped := by
  intro hlate
  obtain ⟨hrun, hslack⟩ := h (hl hlate)
  refine ⟨?_, hslack⟩
  show b = false
  cases b with
  | false => rfl
  | true => rw [hb rfl] at hrun; exact hrun

/-- What an operation on the state `s` can end in. -/
inductive Performed (s : State) : Event → Reaction → Prop where
  /-- Host `reset` (R180). -/
  | reset : Performed s .reset ⟨State.initial s.cfg, .done⟩
  /-- Host `write` (R130). -/
  | written (v a : Nat) : Performed s (.write v a) (react s (hostWrite v a s))
  /-- Host `insert`, and `append` as the insertion at LEN (R132, R133). -/
  | inserted (e : Event) (w : InstrWord) (p : Nat) (he : e = .insert w p ∨ (e = .append w ∧ p = s.len)) :
      Performed s e (react s (hostInsert w p s))
  /-- RUN and LATE at most are written (R117 to R120). -/
  | flags (e : Event) (b l : Bool) (hl : s.LateStopped → (s.withFlags b l).LateStopped) :
      Performed s e ⟨s.withFlags b l, .done⟩
  /-- A `step` was run, and RUN and LATE at most were written besides (R114, R118, R120). -/
  | stepped (e : Event) (he : e = .step ∨ e = .auto ∨ e = .lateStep) (b l : Bool)
      (hl : s.LateStopped → (s.withFlags b l).LateStopped) :
      Performed s e ⟨(react s (step s)).state.withFlags b l, (react s (step s)).report⟩

/-- What holds of the state and of every state an operation answers holds after it, whether it faults or not (R157). -/
theorem react_state {P : State → Prop} {s : State} {o : Result} (hs : P s) (ho : ∀ t, o = .next t → P t) :
    P (react s o).state := by
  cases o with
  | next t => exact ho t rfl
  | fault | refused => exact hs

/-- What no `step` writes, whether it faults or not: the parameters, RUN, LATE and the program. -/
theorem react_step_frame (s : State) :
    (react s (step s)).state.cfg = s.cfg ∧ (react s (step s)).state.run = s.run ∧
      (react s (step s)).state.late = s.late ∧ (react s (step s)).state.imem = s.imem :=
  react_state (P := fun t => t.cfg = s.cfg ∧ t.run = s.run ∧ t.late = s.late ∧ t.imem = s.imem)
    ⟨rfl, rfl, rfl, rfl⟩ fun _ => step_frame

/-- A `step` as an operation of the host. -/
theorem performed_step (s : State) : Performed s .step (react s (step s)) := by
  obtain ⟨_, hrun, hlate, _⟩ := react_step_frame s
  have h := Performed.stepped (s := s) .step (by simp) s.run s.late id
  rwa [← hrun, ← hlate] at h

/-- The turn of the sequencer (R118). -/
theorem performed_auto (s : State) : Performed s .auto (autoStep s) := by
  have hend : s.LateStopped → (s.withFlags false s.late).LateStopped := fun h => h.mono nofun id
  cases hrun : s.run with
  | false => rw [autoStep_idle hrun]; exact .flags .auto s.run s.late id
  | true =>
    cases hc : s.complete with
    | true => rw [autoStep_complete hrun hc]; exact .flags .auto false s.late hend
    | false =>
      have hstop := Performed.stepped .auto (by simp) false s.late hend
      cases ht : step s with
      | next t =>
        obtain ⟨_, hrun', hlate, _⟩ := step_frame ht
        rw [autoStep_next hrun hc ht]
        rw [ht, react_next] at hstop
        split
        · rwa [← hlate] at hstop
        · have hgoesOn := Performed.stepped (s := s) .auto (by simp) s.run s.late id
          rwa [ht, react_next, ← hrun', ← hlate] at hgoesOn
      | fault f => rw [autoStep_fault hrun hc ht]; rwa [ht] at hstop
      | refused r => rw [autoStep_refused hrun hc ht]; rwa [ht] at hstop

/-- The late step (R120). -/
theorem performed_lateStep (s : State) : Performed s .lateStep (lateStep s) := by
  by_cases hdue : s.late = false ∨ s.complete = true
  · rw [lateStep_idle hdue]; exact .flags .lateStep s.run s.late id
  · obtain ⟨hl, hc⟩ := not_or.1 hdue
    obtain ⟨_, hrun, _, _⟩ := react_step_frame s
    have h := Performed.stepped (s := s) .lateStep (by simp) s.run false fun h => h.mono id nofun
    rw [lateStep_due (Bool.eq_true_of_not_eq_false hl) (Bool.eq_false_of_not_eq_true hc)]
    rwa [← hrun] at h

/-- `play` sets RUN and clears LATE, or does nothing (R117, R120). -/
theorem performed_play (s : State) : Performed s .play ⟨play s, .done⟩ := by
  unfold play
  split
  · exact .flags .play s.run s.late id
  · exact .flags .play true false fun _ => nofun

/-- Every operation ends in one of these ways. -/
theorem perform_performed (e : Event) (s : State) : Performed s e (perform e s) := by
  cases e with
  | reset => exact .reset
  | write v a => exact .written v a
  | append w =>
    show Performed s (.append w) (react s (hostAppend w s))
    rw [hostAppend_eq_hostInsert]
    exact .inserted _ w s.len (.inr ⟨rfl, rfl⟩)
  | insert w p => exact .inserted _ w p (.inl rfl)
  | step => exact performed_step s
  | play => exact performed_play s
  | stop slack => exact .flags _ false (slack && s.cfg.stopSlack) fun _ hl => ⟨rfl, (Bool.and_eq_true_iff.1 hl).2⟩
  | snapshot => exact .flags _ s.run s.late id
  | auto => exact performed_auto s
  | lateStep => exact performed_lateStep s

/-- A host `write` that answers a state, in any state, wrote one valid cell and DR (R130). -/
theorem hostWrite_eq_next {s t : State} {v a : Nat} (h : hostWrite v a s = .next t) :
    a < s.cfg.size ∧ t.mem = Memory.write s.mem a (maskW s.cfg.w v) ∧ t = { s with mem := t.mem, dr := t.dr } := by
  unfold hostWrite at h
  split at h
  · cases h
  · rename_i u hu
    obtain ⟨ha, rfl⟩ := memWrite_eq_ok.1 hu
    split at h
    · cases h
    · cases h; exact ⟨ha, rfl, rfl⟩

/-- A host `insert` that answers a state inserted the word into a store with room (R133). -/
theorem hostInsert_eq_next {s t : State} {w : InstrWord} {p : Nat} (h : hostInsert w p s = .next t) :
    p ≤ s.len ∧ s.imemFull = false ∧ t = { s with imem := s.imem.insertIdx p w } := by
  rcases Nat.lt_or_ge s.len p with hp | hp
  · rw [hostInsert_outside hp] at h; cases h
  · cases hf : s.imemFull with
    | true => rw [hostInsert_full hp hf] at h; cases h
    | false => rw [hostInsert_room hp hf] at h; cases h; exact ⟨hp, rfl, rfl⟩

/-- The program of `t` is that of `s`, or the operation `e` has put one word more into it. -/
def ImemKeptOrInserted (e : Event) (s t : State) : Prop :=
  t.imem = s.imem ∨ ∃ w p, p ≤ s.len ∧ (e = .insert w p ∨ e = .append w) ∧ t.imem = s.imem.insertIdx p w

namespace Performed

variable {s : State} {e : Event} {r : Reaction}

/-- No operation writes the parameters (R180). -/
theorem cfg_eq (h : Performed s e r) : r.state.cfg = s.cfg := by
  cases h with
  | reset | flags => rfl
  | written v a =>
    refine react_state (P := fun t => t.cfg = s.cfg) rfl fun t ht => ?_
    obtain ⟨_, _, ht⟩ := hostWrite_eq_next ht
    rw [ht]
  | inserted _ w p =>
    refine react_state (P := fun t => t.cfg = s.cfg) rfl fun t ht => ?_
    obtain ⟨_, _, rfl⟩ := hostInsert_eq_next ht
    rfl
  | stepped =>
    obtain ⟨hcfg, _⟩ := react_step_frame s
    exact hcfg

/-- Of the operations other than `reset` only an insertion that succeeds writes the program (R25, R56). -/
theorem imem_keptOrInserted (h : Performed s e r) (he : e ≠ .reset) : ImemKeptOrInserted e s r.state := by
  cases h with
  | reset => exact absurd rfl he
  | flags => exact .inl rfl
  | written v a =>
    refine react_state (P := ImemKeptOrInserted _ s) (.inl rfl) fun t ht => ?_
    obtain ⟨_, _, ht⟩ := hostWrite_eq_next ht
    exact .inl (by rw [ht])
  | inserted _ w p hins =>
    refine react_state (P := ImemKeptOrInserted _ s) (.inl rfl) fun t ht => ?_
    obtain ⟨hp, _, rfl⟩ := hostInsert_eq_next ht
    exact .inr ⟨w, p, hp, hins.imp id And.left, rfl⟩
  | stepped =>
    obtain ⟨_, _, _, himem⟩ := react_step_frame s
    exact .inl himem

end Performed

/-- Settles O58: of the ways an operation can end none writes the parameters. -/
theorem parametersNeverChange : Obligations.ParametersNeverChange :=
  fun e s => (perform_performed e s).cfg_eq

/-- Settles O59: an insertion leaves the old program in its order and makes it one word longer, and nothing else writes
the program. -/
theorem programOnlyGrows : Obligations.ProgramOnlyGrows := by
  intro e s he
  rcases (perform_performed e s).imem_keptOrInserted he with himem | ⟨w, p, hp, hins, himem⟩
  · exact ⟨himem ▸ List.Sublist.refl _, .inl himem⟩
  · refine ⟨himem ▸ List.sublist_insertIdx s.imem p w, .inr ⟨?_, ?_⟩⟩
    · rw [State.len, himem, List.length_insertIdx_of_le_length hp w]; rfl
    · rcases hins with rfl | rfl
      · exact .inr ⟨w, p, rfl⟩
      · exact .inl ⟨w, rfl⟩

end Sys2Proof.Machine

/-! The invariants of a step boundary (10_state.md section 3): construction has them, and every operation keeps them. -/

namespace Sys2Proof.Machine

/-- A core starts with the invariants (R35, R180). -/
theorem State.Inv.initial {c : Config} (hc : c.wf = true) : (State.initial c).Inv := by
  obtain ⟨hcfgWf, hacc, har, hdr, hmem, hbound, hwf⟩ := State.DataInv.initial hc
  exact ⟨hcfgWf, hacc, har, hdr, hmem, hbound, hwf, Nat.le_refl _, nofun, nofun, fun _ => rfl, fun _ => rfl, nofun,
    fun n _ => Nat.zero_le n⟩

/-- RUN and LATE take part in the one invariant about LATE only (R120). -/
theorem State.Inv.withFlags {s : State} (h : s.Inv) {b l : Bool} (hl : (s.withFlags b l).LateStopped) :
    (s.withFlags b l).Inv :=
  ⟨h.cfgWf, h.accRange, h.arValid, h.drMirror, h.memRange, h.memBounded, h.memWf, h.pcRange, h.decodedPending,
    h.irLegal, h.irBlank, h.fusedIdle, hl, h.capacity⟩

/-- A host `write` keeps the invariants: those of the data path by its refresh of DR, and it writes nothing else
(R130). -/
theorem State.Inv.hostWrite {s t : State} (h : s.Inv) {v a : Nat} (ht : hostWrite v a s = .next t) : t.Inv := by
  obtain ⟨hcfgWf, hacc, har, hdr, hmem, hbound, hwf⟩ := h.dataInv.hostWrite ht
  obtain ⟨_, _, hframe⟩ := hostWrite_eq_next ht
  rw [hframe] at hcfgWf hacc har hdr hmem hbound hwf ⊢
  exact ⟨hcfgWf, hacc, har, hdr, hmem, hbound, hwf, h.pcRange, h.decodedPending, h.irLegal, h.irBlank, h.fusedIdle,
    h.lateStopped, h.capacity⟩

/-- A host `insert` keeps the invariants: PC stays within the longer program, and the store had room (R132, R133). -/
theorem State.Inv.hostInsert {s t : State} (h : s.Inv) {w : InstrWord} {p : Nat}
    (ht : hostInsert w p s = .next t) : t.Inv := by
  obtain ⟨hp, hf, rfl⟩ := hostInsert_eq_next ht
  have hlen : (s.imem.insertIdx p w).length = s.len + 1 := List.length_insertIdx_of_le_length hp w
  have hroom := State.imemFull_eq_false.1 hf
  refine ⟨h.cfgWf, h.accRange, h.arValid, h.drMirror, h.memRange, h.memBounded, h.memWf, ?pc, fun hd => ⟨?decoded, ?irv⟩,
    h.irLegal, h.irBlank, h.fusedIdle, h.lateStopped, fun n hn => ?capacity⟩
  case pc => exact (Nat.le_succ_of_le h.pcRange).trans hlen.ge
  case decoded => exact (Nat.lt_succ_of_lt (h.decodedPending hd).1).trans_le hlen.ge
  case irv => exact (h.decodedPending hd).2
  case capacity => exact hlen.le.trans (hroom n hn)

/-- Every operation of either agent keeps the invariants. -/
theorem State.Inv.performed {s : State} {e : Event} {r : Reaction} (h : s.Inv) (hr : Performed s e r) :
    r.state.Inv := by
  cases hr with
  | reset => exact .initial h.cfgWf
  | written v a => exact react_state h fun t => h.hostWrite
  | inserted _ w p => exact react_state h fun t => h.hostInsert
  | flags _ b l hl => exact h.withFlags (hl h.lateStopped)
  | stepped _ _ b l hl =>
    obtain ⟨hcfg, _⟩ := react_step_frame s
    have hinv : (react s (Machine.step s)).state.Inv := react_state h fun _ => h.step
    refine hinv.withFlags fun hlate => ?_
    obtain ⟨hrun, hslack⟩ := hl h.lateStopped hlate
    exact ⟨hrun, (congrArg Config.stopSlack hcfg).trans hslack⟩

/-- Every operation keeps the invariants. -/
theorem State.Inv.perform {s : State} (h : s.Inv) (e : Event) : (perform e s).state.Inv :=
  h.performed (perform_performed e s)

/-- Settles O53: the reset values satisfy every invariant, and the reference parameters are within the constraints. -/
theorem constructionHasInvariants : Obligations.ConstructionHasInvariants :=
  ⟨.initial (by decide), fun _ => .initial⟩

/-- Settles O54: the phases keep the data path in range and PC within the program, and only legal words reach IR. -/
theorem stepKeepsInvariants : Obligations.StepKeepsInvariants := fun _ _ h => h.step

/-- Settles O55: each way an operation can end keeps the invariants. -/
theorem everyOperationKeepsInvariants : Obligations.EveryOperationKeepsInvariants := fun _ e h => h.perform e

end Sys2Proof.Machine

/-! Faults and refusals (60_exceptions.md): where each comes from, and that it changes nothing. -/

namespace Sys2Proof.Machine

/-- With AR a valid address, only an argument can make the effective address invalid (R30, R71). -/
theorem le_effectiveAddr_iff {i : Instr} {s : State} (har : s.ar.toNat < s.cfg.size) :
    s.cfg.size ≤ effectiveAddr i s ↔ ∃ a, i.arg = some a ∧ s.cfg.size ≤ a := by
  unfold effectiveAddr
  cases ha : i.arg with
  | none => simpa using har
  | some a => simp

/-- The one fault of an instruction is that of its argument in the fetch/decode phase (R152, R155). -/
theorem exec_fault_iff {i : Instr} {s : State} (h : s.DataInv) {f : Fault} :
    exec i s = .fault f ↔
      s.phase = .idle ∧ ∃ a, i.arg = some a ∧ s.cfg.size ≤ a ∧ f = .outOfRange a (some s.pc) := by
  constructor
  · intro hf
    have hinvalid : s.phase = .idle ∧ s.cfg.size ≤ effectiveAddr i s := by
      by_contra hno
      obtain ⟨t, ht⟩ := exec_total (i := i) h fun hp => Nat.lt_of_not_le fun hle => hno ⟨hp, hle⟩
      rw [hf] at ht; cases ht
    obtain ⟨hp, hle⟩ := hinvalid
    obtain ⟨a, ha, hsize⟩ := (le_effectiveAddr_iff h.arValid).1 hle
    rw [exec_invalid hp hle, effectiveAddr, ha] at hf
    cases hf
    exact ⟨hp, a, ha, hsize, rfl⟩
  · rintro ⟨hp, a, ha, hsize, rfl⟩
    have hle := (le_effectiveAddr_iff h.arValid).2 ⟨a, ha, hsize⟩
    rw [exec_invalid hp hle, effectiveAddr, ha]

/-- Every cause of a fault of a `step` (R152). -/
theorem State.Inv.step_fault {s : State} (h : s.Inv) {f : Fault} (hf : Machine.step s = .fault f) :
    s.phase = .idle ∧ ∃ w, s.imem[s.pc]? = some w ∧
      ((decode w = none ∧ f = .unknownOperation w s.pc) ∨
       ∃ i a, decode w = some i ∧ i.arg = some a ∧ s.cfg.size ≤ a ∧ f = .outOfRange a (some s.pc)) := by
  rcases s.phase_cases with hp | hp
  · have hc : s.pc ≠ s.len := fun hc => by rw [step_complete hc] at hf; cases hf
    obtain ⟨w, hw, ⟨hi, hstep⟩ | ⟨i, hi, hstep⟩⟩ := h.step_idle hc hp <;> rw [hstep] at hf
    · cases hf
      exact ⟨hp, w, hw, .inl ⟨hi, rfl⟩⟩
    · obtain ⟨_, a, ha, hsize, hf⟩ := (exec_fault_iff h.dataInv).1 hf
      exact ⟨hp, w, hw, .inr ⟨i, a, hi, ha, hsize, hf⟩⟩
  · obtain ⟨t, ht⟩ := h.step_decoded_total hp
    rw [hf] at ht; cases ht

/-- An instruction answers a state or faults. -/
theorem exec_ne_refused {i : Instr} {s : State} (h : s.DataInv) (r : Refusal) : exec i s ≠ .refused r := by
  intro hr
  by_cases hv : s.phase = .idle ∧ s.cfg.size ≤ effectiveAddr i s
  · rw [exec_invalid hv.1 hv.2] at hr; cases hr
  · obtain ⟨t, ht⟩ := exec_total (i := i) h fun hp => Nat.lt_of_not_le fun hle => hv ⟨hp, hle⟩
    rw [hr] at ht; cases ht

/-- With the invariants no `step` is refused: a word is fetched within the program only (R57). -/
theorem State.Inv.step_ne_refused {s : State} (h : s.Inv) (r : Refusal) : Machine.step s ≠ .refused r := by
  intro hr
  rcases s.phase_cases with hp | hp
  · have hc : s.pc ≠ s.len := fun hc => by rw [step_complete hc] at hr; cases hr
    obtain ⟨w, _, ⟨_, hstep⟩ | ⟨i, _, hstep⟩⟩ := h.step_idle hc hp <;> rw [hstep] at hr
    · cases hr
    · exact exec_ne_refused h.dataInv r hr
  · obtain ⟨t, ht⟩ := h.step_decoded_total hp
    rw [hr] at ht; cases ht

theorem react_report_eq_fault {s : State} {o : Result} {f : Fault} :
    (react s o).report = .fault f ↔ o = .fault f := by cases o <;> simp

theorem react_report_eq_refused {s : State} {o : Result} {r : Refusal} :
    (react s o).report = .refused r ↔ o = .refused r := by cases o <;> simp

/-- An operation that does not report its end as done leaves the state (R157). -/
theorem react_state_of_report {s : State} {o : Result} (h : (react s o).report ≠ .done) : (react s o).state = s := by
  cases o with
  | next t => exact absurd rfl h
  | fault | refused => rfl

/-- The one fault of a host `write` is that of its address (R155). -/
theorem hostWrite_fault_iff {s : State} (h : s.DataInv) {v a : Nat} {f : Fault} :
    hostWrite v a s = .fault f ↔ s.cfg.size ≤ a ∧ f = .outOfRange a none := by
  rcases Nat.lt_or_ge a s.cfg.size with ha | ha
  · rw [hostWrite_valid h.memWf h.arValid ha]
    exact ⟨nofun, fun ⟨hle, _⟩ => absurd ha (Nat.not_lt.2 hle)⟩
  · rw [hostWrite_invalid ha]
    exact ⟨fun hf => by cases hf; exact ⟨ha, rfl⟩, fun ⟨_, hf⟩ => by rw [hf]⟩

/-- With the invariants no host `write` is refused. -/
theorem hostWrite_ne_refused {s : State} (h : s.DataInv) (v a : Nat) (r : Refusal) :
    hostWrite v a s ≠ .refused r := by
  rcases Nat.lt_or_ge a s.cfg.size with ha | ha
  · rw [hostWrite_valid h.memWf h.arValid ha]; nofun
  · rw [hostWrite_invalid ha]; nofun

/-- The one fault of a host `insert` is that of its position (R155). -/
theorem hostInsert_fault_iff {s : State} {w : InstrWord} {p : Nat} {f : Fault} :
    hostInsert w p s = .fault f ↔ s.len < p ∧ f = .outOfRange p none := by
  rcases Nat.lt_or_ge s.len p with hp | hp
  · rw [hostInsert_outside hp]
    exact ⟨fun hf => by cases hf; exact ⟨hp, rfl⟩, fun ⟨_, hf⟩ => by rw [hf]⟩
  · refine ⟨fun hf => ?_, fun ⟨hlt, _⟩ => absurd hp (Nat.not_le.2 hlt)⟩
    cases hfull : s.imemFull with
    | true => rw [hostInsert_full hp hfull] at hf; cases hf
    | false => rw [hostInsert_room hp hfull] at hf; cases hf

/-- The one refusal of a host `insert` is that of a full store (R132). -/
theorem hostInsert_refused {s : State} {w : InstrWord} {p : Nat} {r : Refusal} (h : hostInsert w p s = .refused r) :
    r = .imemFull := by
  rcases hostInsert_cases w p s with ⟨_, e⟩ | ⟨_, _, e⟩ | ⟨_, _, e⟩ <;> rw [e] at h <;> cases h
  rfl

/-- Settles O46: the operations that can fault are the insertions, the host `write` and those that run a `step`. -/
theorem everyCauseOfEveryFault : Obligations.EveryCauseOfEveryFault := by
  intro s e f h hf
  have hr := perform_performed e s
  generalize perform e s = r at hr hf
  cases hr with
  | reset | flags => cases hf
  | written v a =>
    obtain ⟨ha, hf⟩ := (hostWrite_fault_iff h.dataInv).1 (react_report_eq_fault.1 hf)
    exact .inr (.inl ⟨v, a, rfl, ha, hf⟩)
  | inserted _ w p he =>
    obtain ⟨hp, hf⟩ := hostInsert_fault_iff.1 (react_report_eq_fault.1 hf)
    rcases he with rfl | ⟨_, rfl⟩
    · exact .inr (.inr ⟨w, p, rfl, hp, hf⟩)
    · exact absurd hp (Nat.lt_irrefl _)
  | stepped _ he => exact .inl ⟨he, h.step_fault (react_report_eq_fault.1 hf)⟩

/-- With the invariants there are two kinds of fault (R152, R159). -/
theorem State.Inv.perform_fault {s : State} (h : s.Inv) {e : Event} {f : Fault}
    (hf : (Machine.perform e s).report = .fault f) :
    (∃ v p, f = .outOfRange v p) ∨ ∃ w p, f = .unknownOperation w p := by
  rcases everyCauseOfEveryFault s e f h hf with
    ⟨_, _, _, _, ⟨_, h⟩ | ⟨_, _, _, _, _, h⟩⟩ | ⟨_, _, _, _, h⟩ | ⟨_, _, _, _, h⟩
  · exact .inr ⟨_, _, h⟩
  · exact .inl ⟨_, _, h⟩
  · exact .inl ⟨_, _, h⟩
  · exact .inl ⟨_, _, h⟩

/-- With the invariants the one refusal is that of a full store (R132). -/
theorem State.Inv.perform_refused {s : State} (h : s.Inv) {e : Event} {r : Refusal}
    (hr : (Machine.perform e s).report = .refused r) : r = .imemFull := by
  have hp := perform_performed e s
  generalize Machine.perform e s = q at hp hr
  cases hp with
  | reset | flags => cases hr
  | written v a => exact absurd (react_report_eq_refused.1 hr) (hostWrite_ne_refused h.dataInv v a r)
  | inserted => exact hostInsert_refused (react_report_eq_refused.1 hr)
  | stepped => exact absurd (react_report_eq_refused.1 hr) (h.step_ne_refused r)

/-- Settles O57: the invariants hold at construction and after every operation, and with them a fault or a refusal has
one of the causes the hardware has. -/
theorem everyReachableStateIsSafe : Obligations.EveryReachableStateIsSafe := by
  intro c es hc s
  have hinv : s.Inv := performAll_induction (fun e _ h => h.perform e) es (.initial hc)
  have hcfg : s.cfg = c :=
    performAll_induction (P := fun t => t.cfg = c) (fun e t h => (parametersNeverChange e t).trans h) es rfl
  refine ⟨hinv, hcfg, hcfg ▸ hinv.accRange, hcfg ▸ hinv.dataInv.drRange, hcfg ▸ hinv.memRange, hcfg ▸ hinv.arValid,
    hinv.pcRange, fun e => ⟨fun hf => ?_, fun hf => ?_, fun hr => ?_⟩⟩
  · rcases hinv.perform_fault hf with ⟨_, _, h⟩ | ⟨_, _, h⟩ <;> cases h
  · rcases hinv.perform_fault hf with ⟨_, _, h⟩ | ⟨_, _, h⟩ <;> cases h
  · cases hinv.perform_refused hr

/-- Settles O48: each boundary is that of the one fault the operation has. -/
theorem outOfRangeExactly : Obligations.OutOfRangeExactly := by
  refine ⟨fun _ _ => rfl, fun s h => ⟨fun a => ⟨fun hr => ?read, memRead_invalid⟩, fun w => ?append, fun v a => ?write,
    fun w p => ?insert, fun hp o a => ?argument, fun o f hf => ?retained⟩⟩
  case read =>
    by_contra ha
    rw [memRead_valid (Nat.lt_of_not_le ha)] at hr
    cases hr
  case append => exact (congrArg (react s) (hostAppend_eq_hostInsert w s)).symm
  case write => exact react_report_eq_fault.trans ((hostWrite_fault_iff h.dataInv).trans (and_iff_left rfl))
  case insert => exact react_report_eq_fault.trans (hostInsert_fault_iff.trans (and_iff_left rfl))
  case argument => simp [exec_fault_iff h.dataInv, hp]
  case retained =>
    obtain ⟨_, a, ha, _⟩ := (exec_fault_iff h.dataInv).1 hf
    rw [Instr.arg_ofOp] at ha
    cases ha

/-- An automatic step that is not done clears RUN and changes nothing else (R118, R157, D11). -/
theorem autoStep_state_of_report {s : State} (h : (autoStep s).report ≠ .done) : (autoStep s).state = s.endRun := by
  cases hrun : s.run with
  | false => exact absurd (by rw [autoStep_idle hrun]) h
  | true =>
    cases hc : s.complete with
    | true => exact absurd (by rw [autoStep_complete hrun hc]) h
    | false =>
      cases ht : step s with
      | next t => exact absurd (by rw [autoStep_next hrun hc ht]) h
      | fault f => rw [autoStep_fault hrun hc ht]
      | refused r => rw [autoStep_refused hrun hc ht]

/-- A late step that is not done clears LATE and changes nothing else (R120, R157). -/
theorem lateStep_state_of_report {s : State} (h : (lateStep s).report ≠ .done) :
    (lateStep s).state = { s with late := false } := by
  by_cases hdue : s.late = false ∨ s.complete = true
  · exact absurd (by rw [lateStep_idle hdue]) h
  · obtain ⟨hl, hc⟩ := not_or.1 hdue
    rw [lateStep_due (Bool.eq_true_of_not_eq_false hl) (Bool.eq_false_of_not_eq_true hc)] at h ⊢
    rw [react_state_of_report h]

/-- Settles O44: `write`, `append`, `insert` and `step` leave the state where they do not answer one; the two steps of
the sequencer write their flag besides. -/
theorem faultChangesNothing : Obligations.FaultChangesNothing := by
  intro e s h
  refine ⟨fun hauto hlate => ?other, fun he => ?auto, fun he => ?lateStep⟩
  case other =>
    cases e with
    | reset | play | stop | snapshot => exact absurd rfl h
    | write | append | insert | step => exact react_state_of_report h
    | auto => exact absurd rfl hauto
    | lateStep => exact absurd rfl hlate
  case auto => subst he; exact autoStep_state_of_report h
  case lateStep => subst he; exact lateStep_state_of_report h

/-- An operation that leaves the state leaves it however often it is repeated. -/
theorem performAll_replicate_of_fixed {e : Event} {s : State} (h : (perform e s).state = s) (n : Nat) :
    performAll (List.replicate n e) s = s := by
  induction n with
  | zero => rfl
  | succ n ih => rw [List.replicate_succ, performAll_cons, h, ih]

/-- Settles O45: a `step` that faults leaves the state, so the next one is the same step again. -/
theorem faultRepeats : Obligations.FaultRepeats := by
  intro s f hf n
  have hreact := perform_step_fault hf
  have hsame := performAll_replicate_of_fixed (e := .step) (by rw [hreact]) n
  refine ⟨hsame, by rw [hsame, hreact], fun hc => ?_⟩
  rw [step_complete hc] at hf
  cases hf

/-- Settles O47: R151's table of codes. -/
theorem faultCodes : Obligations.FaultCodes := ⟨rfl, rfl, fun _ _ => rfl, fun _ _ => rfl, rfl⟩

end Sys2Proof.Machine

/-! Who writes MEM and AR (10_state.md section 2, 43_load_store.md, addressing modes). -/

namespace Sys2Proof.Machine

/-- After an instruction that was decoded into IR or fetched just now, IR holds its word (R111, R112). -/
theorem exec_ir {i : Instr} {s t : State} (h : exec i s = .next t) (hir : s.phase = .decoded → s.ir = encode i) :
    t.ir = encode i := by
  rcases exec_cases h with ⟨hp, u, hu, rfl⟩ | ⟨_, _, _, rfl⟩ | ⟨_, _, _, u, hu, rfl⟩
  · obtain ⟨_, _, hui, _⟩ := operateOf_frame hu
    rw [advance_ir, hui, hir hp]
  · rfl
  · obtain ⟨_, _, hui, _⟩ := operateOf_frame hu
    rw [advance_ir, hui]; rfl

/-- AR stays, or it takes the argument of the instruction that is fetched (R21, R111). -/
theorem exec_ar {i : Instr} {s t : State} (h : s.DataInv) (ht : exec i s = .next t) :
    t.ar = s.ar ∨ (s.phase = .idle ∧ i.arg = some t.ar.toNat) := by
  have hfetch (hv : effectiveAddr i s < s.cfg.size) :
      (decodedState i s).ar = s.ar ∨ i.arg = some (decodedState i s).ar.toNat := by
    have har := toNat_ar_decodedState h hv
    rw [effectiveAddr] at har
    cases ha : i.arg with
    | none => rw [ha] at har; exact .inl (BitVec.eq_of_toNat_eq har)
    | some a => rw [ha] at har; exact .inr (congrArg some har.symm)
  rcases exec_cases ht with ⟨_, u, hu, rfl⟩ | ⟨hp, _, hv, rfl⟩ | ⟨hp, _, hv, u, hu, rfl⟩
  · obtain ⟨_, hua, _⟩ := operateOf_frame hu
    exact .inl hua
  · exact (hfetch hv).imp id fun harg => ⟨hp, harg⟩
  · obtain ⟨_, hua, _⟩ := operateOf_frame hu
    rw [advance_ar, hua]
    exact (hfetch hv).imp id fun harg => ⟨hp, harg⟩

/-- A `step` that answers another state ran the instruction of the word at PC or of the word in IR (R114). -/
theorem step_next_cases {s t : State} (h : step s = .next t) :
    t = s ∨ ∃ w i, decode w = some i ∧ exec i s = .next t ∧
      ((s.phase = .idle ∧ s.imem[s.pc]? = some w) ∨ (s.phase = .decoded ∧ s.ir = w)) := by
  have hcase := step_cases s
  rw [h] at hcase
  generalize hr : Host.Outcome.next t = r at hcase
  cases hcase with
  | complete => cases hr; exact .inl rfl
  | fetched _ hp w i hw hi => exact .inr ⟨w, i, hi, rfl, .inl ⟨hp, hw⟩⟩
  | pending _ hp _ i hi => exact .inr ⟨s.ir, i, hi, rfl, .inr ⟨hp, rfl⟩⟩
  | reserved | outside | invalid => cases hr

/-- A cell that a `step` changes is the one AR selects after it, and a `store` has written ACC to it (R28). -/
theorem State.Inv.step_cell {s t : State} (h : s.Inv) (ht : Machine.step s = .next t) {b : Nat}
    (hb : t.cell b ≠ s.cell b) :
    t.ar.toNat = b ∧ t.pc = s.pc + 1 ∧ ∃ i, decode t.ir = some i ∧ i.op = .store ∧ t.cell b = s.acc := by
  rcases step_next_cases ht with rfl | ⟨w, i, hi, hexec, hdue⟩
  · exact absurd rfl hb
  · obtain ⟨ho, har, hcell, hpc⟩ := exec_cell h.memWf hexec hb
    rw [maskW_of_lt h.accRange] at hcell
    have hw : encode i = w := (encode_of_decode hi).1
    have hir : s.phase = .decoded → s.ir = encode i := by
      intro hp
      rcases hdue with ⟨hidle, _⟩ | ⟨_, hir⟩
      · rw [hp] at hidle; cases hidle
      · rw [hir, hw]
    exact ⟨har, hpc, i, by rw [exec_ir hexec hir, hw, hi], ho, hcell⟩

/-- Settles O42: of the ways an operation can end only `reset`, a host `write` and a `step` can write a cell, and a
`step` writes the one its `store` selects. -/
theorem memoryWrittenOnlyByStoreAndHost : Obligations.MemoryWrittenOnlyByStoreAndHost := by
  intro s e b h hb
  have hr := perform_performed e s
  generalize perform e s = r at hr hb ⊢
  cases hr with
  | reset => exact .inl rfl
  | written v a =>
    cases ht : hostWrite v a s with
    | next t =>
      rw [ht, react_next] at hb
      obtain ⟨ha, hmem, _⟩ := hostWrite_eq_next ht
      have hat : b = a := by
        by_contra hne
        rw [State.cell, hmem, Memory.read_write h.memWf, if_neg hne] at hb
        exact hb rfl
      exact .inr (.inl ⟨v, by rw [hat], hat ▸ ha⟩)
    | fault | refused => rw [ht] at hb; exact absurd rfl hb
  | inserted _ w p =>
    refine absurd (react_state (P := fun t => t.cell b = s.cell b) rfl fun t ht => ?_) hb
    obtain ⟨_, _, rfl⟩ := hostInsert_eq_next ht
    rfl
  | flags => exact absurd rfl hb
  | stepped _ he =>
    cases ht : step s with
    | next t =>
      rw [ht, react_next] at hb
      exact .inr (.inr ⟨he, h.step_cell ht hb⟩)
    | fault | refused => rw [ht] at hb; exact absurd rfl hb

/-- The cell `b` is named in the program of `s`, or AR selects it. -/
def NamedCell (s : State) (b : Nat) : Prop :=
  b = s.ar.toNat ∨ ∃ w ∈ s.imem, ∃ i, decode w = some i ∧ i.arg = some b

/-- From the state `s` a run has come to `t`, has left the program and has touched only cells named at `s`. -/
structure TouchedNamed (s t : State) : Prop where
  inv : t.Inv
  imem : t.imem = s.imem
  ar : NamedCell s t.ar.toNat
  cells : ∀ b, t.cell b ≠ s.cell b → NamedCell s b

theorem TouchedNamed.refl {s : State} (h : s.Inv) : TouchedNamed s s := ⟨h, rfl, .inl rfl, fun _ hb => absurd rfl hb⟩

/-- A `step` takes AR from the program, or leaves it, and writes the cell AR selects, if any. -/
theorem TouchedNamed.step {s t u : State} (h : TouchedNamed s t) (hu : Machine.step t = .next u) :
    TouchedNamed s u := by
  obtain ⟨_, _, _, himem⟩ := step_frame hu
  have har : NamedCell s u.ar.toNat := by
    rcases step_next_cases hu with rfl | ⟨w, i, hi, hexec, hdue⟩
    · exact h.ar
    · rcases exec_ar h.inv.dataInv hexec with hsame | ⟨hp, harg⟩
      · rw [hsame]; exact h.ar
      · rcases hdue with ⟨_, hw⟩ | ⟨hd, _⟩
        · exact .inr ⟨w, h.imem ▸ List.mem_of_getElem? hw, i, hi, harg⟩
        · rw [hp] at hd; cases hd
  refine ⟨h.inv.step hu, himem.trans h.imem, har, fun b hb => ?_⟩
  by_cases hsame : u.cell b = t.cell b
  · exact h.cells b (hsame ▸ hb)
  · obtain ⟨hat, _⟩ := h.inv.step_cell hu hsame
    exact hat ▸ har

/-- What one operation keeps holds however often it is repeated. -/
theorem performAll_replicate_induction {P : State → Prop} {e : Event} (hstep : ∀ s, P s → P (perform e s).state)
    (n : Nat) {s : State} (hs : P s) : P (performAll (List.replicate n e) s) := by
  induction n generalizing s with
  | zero => exact hs
  | succ n ih => exact ih (hstep s hs)

/-- Settles O43, by induction on the number of steps. -/
theorem programTouchesOnlyNamedCells : Obligations.ProgramTouchesOnlyNamedCells := by
  intro s n h
  have hrun : TouchedNamed s (performAll (List.replicate n .step) s) :=
    performAll_replicate_induction (fun t ht => react_state ht fun _ => ht.step) n (.refl h)
  exact ⟨hrun.ar, hrun.cells⟩

end Sys2Proof.Machine

/-! `play`, the automatic steps and `stop` (44_sequencer.md section 4). -/

namespace Sys2Proof.Machine

/-- The completion flag is off exactly where PC is not LEN. -/
theorem State.complete_eq_false {s : State} : s.complete = false ↔ s.pc ≠ s.len := by
  rw [← Bool.not_eq_true, State.complete_iff]; rfl

/-- Settles O29: `play` looks at the completion flag alone, and writes RUN and LATE alone. -/
theorem playSetsRun : Obligations.PlaySetsRun := by
  intro s
  have hplay : perform .play s = ⟨play s, .done⟩ := rfl
  rw [hplay, play]
  cases hc : s.complete with
  | true =>
    have hlen : s.pc = s.len := s.complete_iff.1 hc
    exact ⟨fun _ => rfl, fun hne => absurd hlen hne, fun _ _ => rfl⟩
  | false =>
    refine ⟨fun hlen => absurd hlen (State.complete_eq_false.1 hc), fun _ => rfl, fun hrun hlate => ?_⟩
    rw [if_neg Bool.false_ne_true, ← hrun, ← hlate]

/-- Settles O30: the branches of the automatic step, each from what its `step` answers. -/
theorem automaticStep : Obligations.AutomaticStep := by
  intro s
  refine ⟨autoStep_idle, fun hrun hc => autoStep_complete hrun (s.complete_iff.2 hc), fun hrun hc => ?_⟩
  have hc' := State.complete_eq_false.2 hc
  refine ⟨fun f hf => autoStep_fault hrun hc' hf, fun t ht htc => ?completes, fun t ht htc => ?goesOn⟩
  case completes => exact (autoStep_next hrun hc' ht).trans (by rw [if_pos (t.complete_iff.2 htc)]; rfl)
  case goesOn =>
    obtain ⟨_, hrun', _⟩ := step_frame ht
    refine ⟨(autoStep_next hrun hc' ht).trans ?_, hrun'.trans hrun⟩
    rw [State.complete_eq_false.2 htc, if_neg Bool.false_ne_true]

/-- Settles O32: `stop` writes RUN, and LATE from the draw and the parameter alone. -/
theorem stopClearsRun : Obligations.StopClearsRun := by
  intro s b
  refine ⟨⟨_, rfl⟩, rfl, fun hslack hlate => ?_⟩
  have hstop : perform (.stop b) s = ⟨{ s with run := false }, .done⟩ := by
    show Reaction.mk (stop b s) .done = _
    rw [stop, hslack, Bool.and_false, ← hlate]
  exact ⟨hstop, fun hrun => by rw [hstop, ← hrun]⟩

/-- Settles O33: LATE comes from the draw and STOP_SLACK, and a late step that is due clears it. -/
theorem atMostOneLateStep : Obligations.AtMostOneLateStep := by
  intro s b
  refine ⟨rfl, fun hl => lateStep_idle (.inl hl), fun _ hc => lateStep_idle (.inr (s.complete_iff.2 hc)),
    fun hl hc => lateStep_due hl (State.complete_eq_false.2 hc), fun h hslack => ?_⟩
  by_contra hl
  obtain ⟨_, hdraw⟩ := h.lateStopped (Bool.eq_true_of_not_eq_false hl)
  rw [hslack] at hdraw
  cases hdraw

/-- While the program is not complete, steps of it are left (R116). -/
theorem State.Inv.stepsDone_lt {s : State} (h : s.Inv) (hc : s.pc ≠ s.len) : s.stepsDone < s.stepsTotal := by
  have hlt : s.pc < s.len := Nat.lt_of_le_of_ne h.pcRange hc
  rcases s.phaseModel_cases with hm | hm
  · obtain ⟨hpc, _⟩ := State.pc_phase_of_stepsDone hm
    rw [State.stepsTotal_split hm]
    omega
  · rwa [State.stepsTotal_fused hm, State.stepsDone_fused hm]

/-- A `play` from the state `s` has ended in `t`: the program is the same, it is complete, and RUN is clear (R118). -/
structure PlayEnded (s t : State) : Prop where
  inv : t.Inv
  complete : t.pc = t.len
  run : t.run = false
  imem : t.imem = s.imem

/-- A `play` has ended after as many turns as the program has steps left (R118). -/
theorem play_ends (n : Nat) {s : State} (h : s.Inv) (hf : s.faultFree) (hrun : s.run = true) (hc : s.pc ≠ s.len)
    (hn : s.stepsTotal ≤ s.stepsDone + n) :
    PlayEnded s (performAll (List.replicate n .auto) s) := by
  induction n generalizing s with
  | zero => exact absurd hn (Nat.not_le.2 (h.stepsDone_lt hc))
  | succ n ih =>
    obtain ⟨u, hu⟩ := h.step_total hf hc
    obtain ⟨hcfg, hrun', _, himem⟩ := step_frame hu
    have hturn : perform .auto s = ⟨if u.complete then u.endRun else u, .done⟩ :=
      autoStep_next hrun (State.complete_eq_false.2 hc) hu
    have hinv := h.perform .auto
    rw [List.replicate_succ, performAll_cons]
    cases huc : u.complete with
    | true =>
      rw [huc, if_pos rfl] at hturn
      rw [hturn] at hinv ⊢
      have hstopped : (perform .auto u.endRun).state = u.endRun :=
        congrArg Reaction.state (autoStep_idle u.endRun_run)
      rw [performAll_replicate_of_fixed hstopped]
      exact ⟨hinv, u.complete_iff.1 huc, rfl, himem⟩
    | false =>
      rw [huc, if_neg Bool.false_ne_true] at hturn
      rw [hturn]
      have hleft : u.stepsTotal ≤ u.stepsDone + n := by
        rw [State.stepsTotal_congr hcfg himem, stepsDone_step hc hu]
        omega
      have hend := ih (h.step hu) (hf.step hu) (hrun'.trans hrun) (State.complete_eq_false.1 huc) hleft
      exact ⟨hend.inv, hend.complete, hend.run, hend.imem.trans himem⟩

/-- An instruction has at most two steps (R114, R115). -/
theorem stepsTotal_le (s : State) : s.stepsTotal ≤ s.stepsDone + 2 * (s.len - s.pc) := by
  rcases s.phaseModel_cases with hm | hm
  · obtain ⟨hpc, _⟩ := State.pc_phase_of_stepsDone hm
    rw [State.stepsTotal_split hm]
    omega
  · rw [State.stepsTotal_fused hm, State.stepsDone_fused hm]
    omega

/-- Settles O31: a `play` ends after the steps that are left, and a complete program owes no execute phase. -/
theorem playReachesCompletion : Obligations.PlayReachesCompletion := by
  intro s h hrun hpc hf n hn t
  have hleft : s.stepsTotal ≤ s.stepsDone + n := (stepsTotal_le s).trans (Nat.add_le_add_left hn _)
  have hend : PlayEnded s t := play_ends n h hf hrun (Nat.ne_of_lt hpc) hleft
  refine ⟨hend.complete.trans (congrArg List.length hend.imem), hend.run, ?_, hend.imem⟩
  rcases t.phase_cases with hidle | hdecoded
  · exact hidle
  · exact absurd hend.complete (Nat.ne_of_lt (hend.inv.decodedPending hdecoded).1)

end Sys2Proof.Machine

/-! The host port (45_host_port.md), and what it does to an instruction in progress (20_memory.md section 5). -/

namespace Sys2Proof.Machine

/-- A host `write` at a valid address, from a state with the invariants: one cell takes the masked value, DR mirrors the
cell AR selects, and nothing else changes (R130). -/
theorem State.Inv.perform_write {s : State} (h : s.Inv) (v : Nat) {a : Nat} (ha : a < s.cfg.size) :
    ∃ m d, Machine.perform (.write v a) s = ⟨{ s with mem := m, dr := d }, .done⟩ ∧
      State.Inv { s with mem := m, dr := d } ∧
      ∀ b, Memory.read m b = if b = a then maskW s.cfg.w v else s.cell b := by
  have ht := hostWrite_valid (v := v) h.memWf h.arValid ha
  exact ⟨_, _, congrArg (react s) ht, h.hostWrite ht, fun b => Memory.read_write h.memWf a b _⟩

/-- Settles O34: a host `write` outside MEM faults, and one within writes its cell and the mirror of AR's. -/
theorem hostWriteStoresAndRefreshes : Obligations.HostWriteStoresAndRefreshes := by
  intro s v a h
  refine ⟨fun ha => congrArg (react s) (hostWrite_invalid ha), fun ha => ?_⟩
  obtain ⟨m, d, ht, hinv, hcell⟩ := h.perform_write v ha
  exact ⟨_, ht, (hcell a).trans (if_pos rfl), fun b hb => (hcell b).trans (if_neg hb), hinv.drMirror, rfl⟩

/-- Settles O35: a store without a capacity is never full, one with a capacity is full from it on, and `append` is an
insertion at LEN. -/
theorem appendAddsAtTheEnd : Obligations.AppendAddsAtTheEnd := by
  intro s w
  have happend : perform (.append w) s = react s (hostAppend w s) := rfl
  have hroom (hf : s.imemFull = false) :
      perform (.append w) s = ⟨{ s with imem := s.imem ++ [w] }, .done⟩ := by
    rw [happend, hostAppend_room hf, react_next]
  refine ⟨fun hcap => hroom ?_, fun n hcap => ⟨fun hn => hroom ?_, fun hn => ?_⟩, ?_⟩
  · simp [State.imemFull, hcap]
  · simp [State.imemFull, hcap, hn]
  · have hfull : s.imemFull = true := by simp [State.imemFull, hcap, hn]
    rw [happend, hostAppend, if_pos hfull, react_refused]
  · exact congrArg (react s) (hostAppend_eq_hostInsert w s)

/-- A host `insert` into a store with room, as an operation (R133). -/
theorem perform_insert_room {s : State} {w : InstrWord} {p : Nat} (hp : p ≤ s.len) (hf : s.imemFull = false) :
    perform (.insert w p) s = ⟨{ s with imem := s.imem.insertIdx p w }, .done⟩ :=
  congrArg (react s) (hostInsert_room hp hf)

/-- The words at and above the position of an insertion move up by one. -/
theorem getElem?_insertIdx_succ {α : Type} {l : List α} {w : α} {p k : Nat} (hk : p ≤ k) :
    (l.insertIdx p w)[k + 1]? = l[k]? := List.getElem?_insertIdx_of_gt (Nat.lt_succ_of_le hk)

/-- Settles O36: the position is checked before the capacity, and the new program is the old one with the word inserted
at the position. -/
theorem insertMovesUp : Obligations.InsertMovesUp := by
  intro s w p
  refine ⟨fun hp => congrArg (react s) (hostInsert_outside hp),
    fun hp hf => congrArg (react s) (hostInsert_full hp hf), fun hp hf => ?_⟩
  exact ⟨_, perform_insert_room hp hf, rfl, List.length_insertIdx_of_le_length hp w,
    List.getElem?_insertIdx_self.trans (if_pos hp), fun k hk => List.getElem?_insertIdx_of_lt hk,
    fun k => getElem?_insertIdx_succ⟩

/-- The execute phase reads and writes no word of the program (R64, R134). -/
theorem executedState_imem (o : Op) (s : State) (l : List InstrWord) :
    executedState o { s with imem := l } = { executedState o s with imem := l } := by cases o <;> rfl

/-- Settles O37: PC stays where words move up below it, and the pending instruction is in IR. -/
theorem insertDuringRun : Obligations.InsertDuringRun := by
  intro s w p h hf hp
  have hlen := hp.trans h.pcRange
  have hins := perform_insert_room (w := w) hlen hf
  have hinv := h.perform (.insert w p)
  rw [hins] at hinv ⊢
  have hmoved := getElem?_insertIdx_succ (l := s.imem) (w := w) hp
  refine ⟨rfl, rfl, hmoved, fun hat => ?atPc, fun hbelow => ?below, fun hd => ?decoded⟩
  case atPc => subst hat; exact List.getElem?_insertIdx_self.trans (if_pos hlen)
  case below => exact List.getElem?_insertIdx_of_gt hbelow
  case decoded =>
    obtain ⟨i, hi⟩ := h.exists_decoded hd
    exact ⟨_, _, h.step_eq_executedState hd hi, hinv.step_eq_executedState hd hi, executedState_imem _ _ _, hmoved⟩

/-- The execute phase computes nothing from MEM: its operands are in ACC and DR (R100 to R107). -/
theorem executedState_mem (o : Op) (s : State) (m : Memory) :
    executedState o { s with mem := m } =
      { executedState o s with mem := (executedState o { s with mem := m }).mem } := by cases o <;> rfl

/-- Settles O38: the pending instruction takes its operand from DR, which the host refreshes, and it writes no cell but
the one at AR. -/
theorem hostWriteBetweenPhases : Obligations.HostWriteBetweenPhases := by
  intro s v a h hp ha
  obtain ⟨m, d, ht, hinv, hcell⟩ := h.perform_write v ha
  have hd : d = if s.ar.toNat = a then maskW s.cfg.w v else s.cell s.ar.toNat :=
    hinv.drMirror.trans (hcell s.ar.toNat)
  rw [ht]
  refine ⟨hp, rfl, rfl, fun hat => ?selected, fun hat => ?other⟩
  case selected =>
    rw [if_pos hat.symm] at hd
    subst hd
    exact ⟨rfl, fun i hi => ⟨_, hinv.step_eq_executedState hp hi, acc_executedState _ _⟩⟩
  case other =>
    rw [if_neg (Ne.symm hat), ← h.drMirror] at hd
    subst hd
    obtain ⟨i, hi⟩ := h.exists_decoded hp
    refine ⟨rfl, _, _, h.step_eq_executedState hp hi, hinv.step_eq_executedState hp hi, executedState_mem _ _ _, ?_,
      fun b hb => ?_⟩
    · rw [cell_executedState hinv.memWf, if_neg fun hstore => hat hstore.2]
      exact (hcell a).trans (if_pos rfl)
    · have hsame : Memory.read m b = s.cell b := (hcell b).trans (if_neg hb)
      rw [cell_executedState hinv.memWf, cell_executedState h.memWf, ← hsame]
      rfl

/-- Settles O39: the fields of the snapshot, and for IR what it decodes to. -/
theorem snapshotShowsTheState : Obligations.SnapshotShowsTheState := by
  intro s
  refine ⟨rfl, rfl, rfl, rfl, fun hv => ?noInstruction, fun i hv hi => ?instruction, ?length, fun a ha => ?cell, rfl,
    rfl, rfl, s.complete_iff⟩
  case noInstruction => simp [snapshot, State.pending, hv]
  case instruction => cases harg : i.arg <;> simp [snapshot, State.pending, hv, hi, harg]
  case length => simp [snapshot]
  case cell => simp [snapshot, ha]

/-- With the invariants, equal snapshots show equal cells at every address: those beyond SIZE hold 0 (R28, R136). -/
theorem cell_eq_of_snapshot {s t : State} (hs : s.Inv) (ht : t.Inv) (hcfg : s.cfg = t.cfg)
    (h : (snapshot s).memory = (snapshot t).memory) (a : Nat) : s.cell a = t.cell a := by
  rcases Nat.lt_or_ge a s.cfg.size with ha | ha
  · have hget := congrArg (·[a]?) h
    simpa [snapshot, ha, ← hcfg] using hget
  · rw [hs.memBounded a ha, ht.memBounded a (hcfg ▸ ha)]

/-- What the snapshot shows of IR determines the instruction that is in it (R136). -/
theorem pending_eq_of_snapshot {s t : State}
    (h : (snapshot s).instructionRegister = (snapshot t).instructionRegister) : s.pending = t.pending := by
  refine Option.map_injective (fun i j hij => ?_) h
  obtain ⟨hop, harg⟩ := Prod.mk.injEq .. ▸ hij
  exact Instr.ext_op_arg hop (by simpa using congrArg List.head? harg)

/-- With the invariants the instruction in IR determines IR and IRV: decoding is injective, and IR is blank without one
(R23, R77). -/
theorem ir_irv_eq_of_pending {s t : State} (hs : s.Inv) (ht : t.Inv) (h : s.pending = t.pending) :
    s.ir = t.ir ∧ s.irv = t.irv := by
  have hsome {u : State} (hu : u.Inv) (hv : u.irv = true) : ∃ i, u.pending = some i ∧ decode u.ir = some i := by
    obtain ⟨i, hi⟩ := Option.isSome_iff_exists.1 (hu.irLegal hv)
    exact ⟨i, by rw [State.pending, if_pos hv, hi], hi⟩
  have hnone {u : State} (hv : u.irv = false) : u.pending = none := by rw [State.pending, hv]; rfl
  cases hsv : s.irv with
  | true =>
    obtain ⟨i, hp, hi⟩ := hsome hs hsv
    cases htv : t.irv with
    | true =>
      obtain ⟨j, hq, hj⟩ := hsome ht htv
      rw [hp, hq] at h
      cases h
      exact ⟨decode_injective hi hj, rfl⟩
    | false => rw [hp, hnone htv] at h; cases h
  | false =>
    cases htv : t.irv with
    | true =>
      obtain ⟨j, hq, _⟩ := hsome ht htv
      rw [hnone hsv, hq] at h; cases h
    | false => exact ⟨(hs.irBlank hsv).trans (ht.irBlank htv).symm, rfl⟩

/-- Settles O40: the cells determine MEM in its canonical form, the instruction determines IR and IRV, and every other
register is shown as it is. -/
theorem snapshotDeterminesState : Obligations.SnapshotDeterminesState := by
  intro s t hs ht hcfg hsnap hphase hrun hlate
  have hmem : s.mem = t.mem :=
    Memory.ext_read hs.memWf ht.memWf (cell_eq_of_snapshot hs ht hcfg (congrArg Snapshot.memory hsnap))
  obtain ⟨hir, hirv⟩ :=
    ir_irv_eq_of_pending hs ht (pending_eq_of_snapshot (congrArg Snapshot.instructionRegister hsnap))
  have hacc : s.acc = t.acc := congrArg Snapshot.accumulator hsnap
  have har : s.ar = t.ar := congrArg Snapshot.addressRegister hsnap
  have hdr : s.dr = t.dr := congrArg Snapshot.dataRegister hsnap
  have himem : s.imem = t.imem := congrArg Snapshot.instructionList hsnap
  have hpc : s.pc = t.pc := congrArg Snapshot.counter hsnap
  cases s
  cases t
  rw [State.mk.injEq]
  exact ⟨hcfg, hacc, har, hdr, hir, hirv, hpc, hphase, hrun, hlate, himem, hmem⟩

end Sys2Proof.Machine

/-! Reset and construction (70_reset_and_hazards.md section 1, 00_scope.md section 3). -/

namespace Sys2Proof.Machine

/-- A core after `reset` reads 0 in every cell (R35). -/
theorem cell_initial (c : Config) (a : Nat) : (State.initial c).cell a = 0 := rfl

/-- Settles O50: `reset` leaves the construction state of the same parameters. -/
theorem resetValues : Obligations.ResetValues := by
  intro s
  refine ⟨rfl, rfl, fun hcfg => ?_, rfl, rfl, rfl, rfl, rfl, rfl, rfl, rfl, cell_initial s.cfg, rfl⟩
  show s.cfg.resetAcc = 0 ∧ State.initial s.cfg = State.reset
  rw [hcfg]
  exact ⟨rfl, rfl⟩

/-- Settles O51: the empty program is complete, and one word more than the PC of 0 is not. -/
theorem afterResetNothingRuns : Obligations.AfterResetNothingRuns := by
  refine ⟨step_complete rfl, rfl, rfl, rfl, rfl, rfl, fun c w hcap => ?_⟩
  have hroom : (State.initial c).imemFull = false := by simp [State.imemFull, hcap]
  show (react _ (hostAppend w (State.initial c))).state.complete = false
  rw [hostAppend_room hroom, react_next, State.complete_eq_false]
  exact Nat.zero_ne_one

/-- Settles O52: the check at construction is the conjunction of the four constraints. -/
theorem coresAreBuiltWithinConstraints : Obligations.CoresAreBuiltWithinConstraints := by
  intro c
  rw [← Config.wf_iff, State.build]
  exact ⟨fun hc => ⟨if_pos hc, fun s hs => congrArg State.initial hs⟩, fun hc => if_neg hc⟩

end Sys2Proof.Machine
